-- ==== Sys2Proof/Word.lean ====
section
/-! DEFINITION. The machine word, the byte, and their plainest arithmetic (spec R2, R4). -/

namespace Sys2Proof

/-- A register value, an address, an instruction word: 16 bits (R2). -/
abbrev Word := BitVec 16

/-- The unit of addressing: 8 bits (R2; log 18). -/
abbrev Byte := BitVec 8

end Sys2Proof
end

