-- ==== Sys2Proof/Syntax.lean ====
section
/-! DEFINITION. The instructions, one constructor per row of spec/opcode_table.json (R58). -/

namespace Sys2Proof

/-- The general registers R0..R7 (R10). -/
inductive Reg where
  | r0 | r1 | r2 | r3 | r4 | r5 | r6 | r7
  deriving DecidableEq, Repr

/-- An instruction with its operands, written in the order of the source's syntax column (R58). The
operand letter names the field that holds it (R53): `rd` bits 9..7, `rs` bits 6..4, `rt` bits 2..0. -/
inductive Instr where
  /-- `MOV Rd, Rs` (R80). -/
  | mov (rd rs : Reg)
  /-- `NOP`, the word 0x0000 (R150, R75). -/
  | nop
  /-- `MOVI Rd, Imm` (R81). -/
  | movi (rd : Reg) (imm : BitVec 7)
  /-- `LOAD Rd, [Rs+Imm]` (R82). -/
  | loadInd (rd rs : Reg) (off : BitVec 4)
  /-- `LOAD Rd, Addr` (R83). -/
  | loadDir (rd : Reg) (addr : Word)
  /-- `STORE Rs, [Rd+Imm]` (R84): `rs` is the data, `rd` the base. -/
  | storeInd (rs rd : Reg) (off : BitVec 4)
  /-- `STORE Rs, Addr` (R85). -/
  | storeDir (rs : Reg) (addr : Word)
  /-- `ADD Rd, Rs, Rt` (R90). -/
  | add (rd rs rt : Reg)
  /-- `ADDI Rd, Rs, Imm` (R91). -/
  | addi (rd rs : Reg) (imm : BitVec 4)
  /-- `SUB Rd, Rs, Rt` (R92). -/
  | sub (rd rs rt : Reg)
  /-- `SUBI Rd, Rs, Imm` (R93). -/
  | subi (rd rs : Reg) (imm : BitVec 4)
  /-- `MUL Rd, Rs, Rt` (R94). -/
  | mul (rd rs rt : Reg)
  /-- `DIV Rd, Rs, Rt` (R95). -/
  | div (rd rs rt : Reg)
  /-- `INC Rd` (R96). -/
  | inc (rd : Reg)
  /-- `DEC Rd` (R97). -/
  | dec (rd : Reg)
  /-- `AND Rd, Rs, Rt` (R105). -/
  | and (rd rs rt : Reg)
  /-- `ANDI Rd, Rs, Imm` (R106). -/
  | andi (rd rs : Reg) (imm : BitVec 4)
  /-- `OR Rd, Rs, Rt` (R107). -/
  | or (rd rs rt : Reg)
  /-- `ORI Rd, Rs, Imm` (R108). -/
  | ori (rd rs : Reg) (imm : BitVec 4)
  /-- `XOR Rd, Rs, Rt` (R109). -/
  | xor (rd rs rt : Reg)
  /-- `NOT Rd, Rs` (R110). -/
  | not (rd rs : Reg)
  /-- `SHL Rd, Rs, Rt` (R115). -/
  | shl (rd rs rt : Reg)
  /-- `SHLI Rd, Rs, Imm` (R116). -/
  | shli (rd rs : Reg) (imm : BitVec 4)
  /-- `SHR Rd, Rs, Rt` (R117). -/
  | shr (rd rs rt : Reg)
  /-- `SHRI Rd, Rs, Imm` (R118). -/
  | shri (rd rs : Reg) (imm : BitVec 4)
  /-- `CMP Rs, Rt` (R125). -/
  | cmp (rs rt : Reg)
  /-- `CMPI Rs, Imm` (R126). -/
  | cmpi (rs : Reg) (imm : BitVec 4)
  /-- `JMP Addr` (R130). -/
  | jmp (addr : Word)
  /-- `JZ Addr` (R131). -/
  | jz (addr : Word)
  /-- `JNZ Addr` (R132). -/
  | jnz (addr : Word)
  /-- `JC Addr` (R133). -/
  | jc (addr : Word)
  /-- `JNC Addr` (R134). -/
  | jnc (addr : Word)
  /-- `JN Addr` (R135). -/
  | jn (addr : Word)
  /-- `CALL Addr` (R136). -/
  | call (addr : Word)
  /-- `RET` (R137). -/
  | ret
  /-- `PUSH Rs` (R145). -/
  | push (rs : Reg)
  /-- `POP Rd` (R146). -/
  | pop (rd : Reg)
  /-- `HALT` (R151). -/
  | halt
  deriving DecidableEq, Repr

end Sys2Proof
end

