-- ==== Sys2Proof/WellFormed.lean ====
section
/-! DEFINITION. Which instruction terms are the canonical reading of their words. The operand types
already bound every field (R56, R57), so one check is left: the word 0x0000 has two names (R75). -/

namespace Sys2Proof

/-- `MOV R0, R0` is not well-formed: its word 0x0000 is named `NOP` (R62, R75: the only word with two
names; log 10). Every other instruction is. -/
def Instr.wellFormed : Instr → Bool
  | .mov rd rs => !(rd == .r0 && rs == .r0)
  | .nop => true
  | .movi _ _ => true
  | .loadInd _ _ _ => true
  | .loadDir _ _ => true
  | .storeInd _ _ _ => true
  | .storeDir _ _ => true
  | .add _ _ _ => true
  | .addi _ _ _ => true
  | .sub _ _ _ => true
  | .subi _ _ _ => true
  | .mul _ _ _ => true
  | .div _ _ _ => true
  | .inc _ => true
  | .dec _ => true
  | .and _ _ _ => true
  | .andi _ _ _ => true
  | .or _ _ _ => true
  | .ori _ _ _ => true
  | .xor _ _ _ => true
  | .not _ _ => true
  | .shl _ _ _ => true
  | .shli _ _ _ => true
  | .shr _ _ _ => true
  | .shri _ _ _ => true
  | .cmp _ _ => true
  | .cmpi _ _ => true
  | .jmp _ => true
  | .jz _ => true
  | .jnz _ => true
  | .jc _ => true
  | .jnc _ => true
  | .jn _ => true
  | .call _ => true
  | .ret => true
  | .push _ => true
  | .pop _ => true
  | .halt => true

end Sys2Proof
end

