-- ==== Sys2Proof/Decode.lean ====
section
/-! DEFINITION. Byte order, instruction fields, the decoder (R50 to R62) and the encoder (R64). -/

namespace Sys2Proof

/-! ### Byte order (R33) -/

/-- Bits 7..0 of a word: the byte at the lower address (R33). -/
def Word.lo (w : Word) : Byte := w.extractLsb' 0 8

/-- Bits 15..8 of a word: the byte at the higher address (R33). -/
def Word.hi (w : Word) : Byte := w.extractLsb' 8 8

/-- The word whose low byte is `lo` and whose high byte is `hi` (R33). -/
def Word.ofBytes (lo hi : Byte) : Word := hi ++ lo

/-- A word as it stands in memory, the byte at the lower address first (R33, R63). -/
def Word.bytes (w : Word) : List Byte := [Word.lo w, Word.hi w]

/-! ### Register numbers (R10) -/

/-- The 3-bit number of a register (R10). -/
def Reg.bits : Reg → BitVec 3
  | .r0 => 0
  | .r1 => 1
  | .r2 => 2
  | .r3 => 3
  | .r4 => 4
  | .r5 => 5
  | .r6 => 6
  | .r7 => 7

/-- The register a 3-bit field selects (R10). -/
def Reg.ofBits (b : BitVec 3) : Reg :=
  match b.toNat with
  | 0 => .r0
  | 1 => .r1
  | 2 => .r2
  | 3 => .r3
  | 4 => .r4
  | 5 => .r5
  | 6 => .r6
  | _ => .r7

/-! ### Fields of an instruction word (R50, R51, R57) -/

/-- `op = w[15:10]` (R50). -/
def opField (w : Word) : BitVec 6 := w.extractLsb' 10 6

/-- The register in field `rd = w[9:7]` (R50). -/
def rdField (w : Word) : Reg := Reg.ofBits (w.extractLsb' 7 3)

/-- The register in field `rs = w[6:4]` (R50). -/
def rsField (w : Word) : Reg := Reg.ofBits (w.extractLsb' 4 3)

/-- The register in field `rt = w[2:0]` (R57). -/
def rtField (w : Word) : Reg := Reg.ofBits (w.extractLsb' 0 3)

/-- `imm4 = w[3:0]` (R56). -/
def imm4Field (w : Word) : BitVec 4 := w.extractLsb' 0 4

/-- `imm7 = w[6:0]` (R51, R56). -/
def imm7Field (w : Word) : BitVec 7 := w.extractLsb' 0 7

/-! ### Decoding (R58, R60, R62) -/

/-- A Direct-format instruction whose address word has not been fetched yet (R52). -/
inductive DirectOp where
  | loadDir (rd : Reg)
  | storeDir (rs : Reg)
  | jmp | jz | jnz | jc | jnc | jn | call
  deriving DecidableEq, Repr

/-- What the first word of an instruction decodes to: a whole instruction, or a Direct-format one that
is followed by an address word (R60). -/
inductive FirstWord where
  | whole (i : Instr)
  | direct (d : DirectOp)
  deriving DecidableEq, Repr

/-- Why bytes are no instruction. -/
inductive DecodeError where
  /-- The first word has an unassigned opcode or a nonzero must-be-zero bit (R55, R59). -/
  | illegal (w : Word)
  /-- Fewer bytes than the instruction is long; the machine's fetch never answers this (log 21). -/
  | truncated
  deriving DecidableEq, Repr

/-- A row of the opcode map (R58): a first word `w` is this row's instruction iff
`w &&& mask = bits`, and `read` takes its operands from the word's fields. -/
structure OpcodeRow where
  mask : Word
  bits : Word
  read : Word → FirstWord

/-- The opcode map of R58, row by row; `NOP` stands before `MOV`, whose words hold its one word (R75). -/
def opcodeTable : List OpcodeRow :=
  [ ⟨0xFFFF, 0x0000, fun _ => .whole .nop⟩,
    ⟨0xFC0F, 0x0000, fun w => .whole (.mov (rdField w) (rsField w))⟩,
    ⟨0xFC00, 0x0400, fun w => .whole (.movi (rdField w) (imm7Field w))⟩,
    ⟨0xFC00, 0x0800, fun w => .whole (.loadInd (rdField w) (rsField w) (imm4Field w))⟩,
    ⟨0xFC7F, 0x0C00, fun w => .direct (.loadDir (rdField w))⟩,
    ⟨0xFC00, 0x1000, fun w => .whole (.storeInd (rsField w) (rdField w) (imm4Field w))⟩,
    ⟨0xFF8F, 0x1400, fun w => .direct (.storeDir (rsField w))⟩,
    ⟨0xFC08, 0x2000, fun w => .whole (.add (rdField w) (rsField w) (rtField w))⟩,
    ⟨0xFC00, 0x2400, fun w => .whole (.addi (rdField w) (rsField w) (imm4Field w))⟩,
    ⟨0xFC08, 0x2800, fun w => .whole (.sub (rdField w) (rsField w) (rtField w))⟩,
    ⟨0xFC00, 0x2C00, fun w => .whole (.subi (rdField w) (rsField w) (imm4Field w))⟩,
    ⟨0xFC08, 0x3000, fun w => .whole (.mul (rdField w) (rsField w) (rtField w))⟩,
    ⟨0xFC08, 0x3400, fun w => .whole (.div (rdField w) (rsField w) (rtField w))⟩,
    ⟨0xFC7F, 0x3800, fun w => .whole (.inc (rdField w))⟩,
    ⟨0xFC7F, 0x3C00, fun w => .whole (.dec (rdField w))⟩,
    ⟨0xFC08, 0x4000, fun w => .whole (.and (rdField w) (rsField w) (rtField w))⟩,
    ⟨0xFC00, 0x4400, fun w => .whole (.andi (rdField w) (rsField w) (imm4Field w))⟩,
    ⟨0xFC08, 0x4800, fun w => .whole (.or (rdField w) (rsField w) (rtField w))⟩,
    ⟨0xFC00, 0x4C00, fun w => .whole (.ori (rdField w) (rsField w) (imm4Field w))⟩,
    ⟨0xFC08, 0x5000, fun w => .whole (.xor (rdField w) (rsField w) (rtField w))⟩,
    ⟨0xFC0F, 0x5400, fun w => .whole (.not (rdField w) (rsField w))⟩,
    ⟨0xFC08, 0x6000, fun w => .whole (.shl (rdField w) (rsField w) (rtField w))⟩,
    ⟨0xFC00, 0x6400, fun w => .whole (.shli (rdField w) (rsField w) (imm4Field w))⟩,
    ⟨0xFC08, 0x6800, fun w => .whole (.shr (rdField w) (rsField w) (rtField w))⟩,
    ⟨0xFC00, 0x6C00, fun w => .whole (.shri (rdField w) (rsField w) (imm4Field w))⟩,
    ⟨0xFF88, 0x7000, fun w => .whole (.cmp (rsField w) (rtField w))⟩,
    ⟨0xFF80, 0x7400, fun w => .whole (.cmpi (rsField w) (imm4Field w))⟩,
    ⟨0xFFFF, 0x8000, fun _ => .direct .jmp⟩,
    ⟨0xFFFF, 0x8400, fun _ => .direct .jz⟩,
    ⟨0xFFFF, 0x8800, fun _ => .direct .jnz⟩,
    ⟨0xFFFF, 0x8C00, fun _ => .direct .jc⟩,
    ⟨0xFFFF, 0x9000, fun _ => .direct .jnc⟩,
    ⟨0xFFFF, 0x9400, fun _ => .direct .jn⟩,
    ⟨0xFFFF, 0x9800, fun _ => .direct .call⟩,
    ⟨0xFFFF, 0x9C00, fun _ => .whole .ret⟩,
    ⟨0xFF8F, 0xA000, fun w => .whole (.push (rsField w))⟩,
    ⟨0xFC7F, 0xA400, fun w => .whole (.pop (rdField w))⟩,
    ⟨0xFFFF, 0xFC00, fun _ => .whole .halt⟩ ]

/-- `Decode(w)`, total on all 65536 words (R62): the row of R58 that `w` matches, or *illegal*. -/
def decodeFirst (w : Word) : Except DecodeError FirstWord :=
  match opcodeTable.find? (fun row => w &&& row.mask == row.bits) with
  | some row => .ok (row.read w)
  | none => .error (.illegal w)

/-- A Direct-format instruction with its address word, which is never decoded (R52, R62). -/
def DirectOp.withAddr (addr : Word) : DirectOp → Instr
  | .loadDir rd => .loadDir rd addr
  | .storeDir rs => .storeDir rs addr
  | .jmp => .jmp addr
  | .jz => .jz addr
  | .jnz => .jnz addr
  | .jc => .jc addr
  | .jnc => .jnc addr
  | .jn => .jn addr
  | .call => .call addr

/-- The instruction at the head of a list of bytes, in the order they stand in memory (R63), and the
bytes after it. The first word is judged before the second is looked at (R60). -/
def decodeBytes : List Byte → Except DecodeError (Instr × List Byte)
  | lo :: hi :: rest =>
    match decodeFirst (Word.ofBytes lo hi) with
    | .error e => .error e
    | .ok (.whole i) => .ok (i, rest)
    | .ok (.direct d) =>
      match rest with
      | lo2 :: hi2 :: rest2 => .ok (d.withAddr (Word.ofBytes lo2 hi2), rest2)
      | _ => .error .truncated
  | _ => .error .truncated

/-- The bytes of the longest instruction (two words, R52) whose bits, numbered from the first word's bit
0, are the low `nbits` of `w`; the bits above are 0 (log 16). -/
def tableBytes (nbits w : Nat) : List Byte :=
  let v := w % 2 ^ nbits
  Word.bytes (BitVec.ofNat 16 v) ++ Word.bytes (BitVec.ofNat 16 (v / 2 ^ 16))

/-- The instruction the decoder reads from the bits of an opcode-table row (log 16). -/
def decodeTableWord (nbits w : Nat) : Option Instr :=
  match decodeBytes (tableBytes nbits w) with
  | .ok (i, _) => some i
  | .error _ => none

/-! ### Encoding (R50, R51, R52, R54, R64) -/

/-- An instruction word in the standard format (R50). -/
def asm (op : BitVec 6) (rd rs : BitVec 3) (lo4 : BitVec 4) : Word := op ++ rd ++ rs ++ lo4

/-- The field `lo4` that holds `rt`: bit 3 is zero (R57). -/
def rtLo4 (rt : Reg) : BitVec 4 := 0#1 ++ rt.bits

/-- The words of an instruction, the instruction word first (R64); unused fields are zero (R55). -/
def encode : Instr → List Word
  | .mov rd rs => [asm 0x00 rd.bits rs.bits 0]
  | .nop => [0x0000]
  | .movi rd imm => [0x01#6 ++ rd.bits ++ imm]
  | .loadInd rd rs off => [asm 0x02 rd.bits rs.bits off]
  | .loadDir rd addr => [asm 0x03 rd.bits 0 0, addr]
  | .storeInd rs rd off => [asm 0x04 rd.bits rs.bits off]
  | .storeDir rs addr => [asm 0x05 0 rs.bits 0, addr]
  | .add rd rs rt => [asm 0x08 rd.bits rs.bits (rtLo4 rt)]
  | .addi rd rs imm => [asm 0x09 rd.bits rs.bits imm]
  | .sub rd rs rt => [asm 0x0A rd.bits rs.bits (rtLo4 rt)]
  | .subi rd rs imm => [asm 0x0B rd.bits rs.bits imm]
  | .mul rd rs rt => [asm 0x0C rd.bits rs.bits (rtLo4 rt)]
  | .div rd rs rt => [asm 0x0D rd.bits rs.bits (rtLo4 rt)]
  | .inc rd => [asm 0x0E rd.bits 0 0]
  | .dec rd => [asm 0x0F rd.bits 0 0]
  | .and rd rs rt => [asm 0x10 rd.bits rs.bits (rtLo4 rt)]
  | .andi rd rs imm => [asm 0x11 rd.bits rs.bits imm]
  | .or rd rs rt => [asm 0x12 rd.bits rs.bits (rtLo4 rt)]
  | .ori rd rs imm => [asm 0x13 rd.bits rs.bits imm]
  | .xor rd rs rt => [asm 0x14 rd.bits rs.bits (rtLo4 rt)]
  | .not rd rs => [asm 0x15 rd.bits rs.bits 0]
  | .shl rd rs rt => [asm 0x18 rd.bits rs.bits (rtLo4 rt)]
  | .shli rd rs imm => [asm 0x19 rd.bits rs.bits imm]
  | .shr rd rs rt => [asm 0x1A rd.bits rs.bits (rtLo4 rt)]
  | .shri rd rs imm => [asm 0x1B rd.bits rs.bits imm]
  | .cmp rs rt => [asm 0x1C 0 rs.bits (rtLo4 rt)]
  | .cmpi rs imm => [asm 0x1D 0 rs.bits imm]
  | .jmp addr => [asm 0x20 0 0 0, addr]
  | .jz addr => [asm 0x21 0 0 0, addr]
  | .jnz addr => [asm 0x22 0 0 0, addr]
  | .jc addr => [asm 0x23 0 0 0, addr]
  | .jnc addr => [asm 0x24 0 0 0, addr]
  | .jn addr => [asm 0x25 0 0 0, addr]
  | .call addr => [asm 0x26 0 0 0, addr]
  | .ret => [asm 0x27 0 0 0]
  | .push rs => [asm 0x28 0 rs.bits 0]
  | .pop rd => [asm 0x29 rd.bits 0 0]
  | .halt => [asm 0x3F 0 0 0]

/-- The bytes of an instruction as they stand in memory (R63). -/
def encodeBytes (i : Instr) : List Byte := (encode i).flatMap Word.bytes

/-- The opcode of an instruction (R58). -/
def Instr.opcode : Instr → BitVec 6
  | .mov _ _ => 0x00
  | .nop => 0x00
  | .movi _ _ => 0x01
  | .loadInd _ _ _ => 0x02
  | .loadDir _ _ => 0x03
  | .storeInd _ _ _ => 0x04
  | .storeDir _ _ => 0x05
  | .add _ _ _ => 0x08
  | .addi _ _ _ => 0x09
  | .sub _ _ _ => 0x0A
  | .subi _ _ _ => 0x0B
  | .mul _ _ _ => 0x0C
  | .div _ _ _ => 0x0D
  | .inc _ => 0x0E
  | .dec _ => 0x0F
  | .and _ _ _ => 0x10
  | .andi _ _ _ => 0x11
  | .or _ _ _ => 0x12
  | .ori _ _ _ => 0x13
  | .xor _ _ _ => 0x14
  | .not _ _ => 0x15
  | .shl _ _ _ => 0x18
  | .shli _ _ _ => 0x19
  | .shr _ _ _ => 0x1A
  | .shri _ _ _ => 0x1B
  | .cmp _ _ => 0x1C
  | .cmpi _ _ => 0x1D
  | .jmp _ => 0x20
  | .jz _ => 0x21
  | .jnz _ => 0x22
  | .jc _ => 0x23
  | .jnc _ => 0x24
  | .jn _ => 0x25
  | .call _ => 0x26
  | .ret => 0x27
  | .push _ => 0x28
  | .pop _ => 0x29
  | .halt => 0x3F

/-- How many words an instruction with this opcode takes (R60). -/
def opcodeWords (op : BitVec 6) : Nat :=
  if op ∈ [0x03, 0x05, 0x20, 0x21, 0x22, 0x23, 0x24, 0x25, 0x26] then 2 else 1

/-- How many words an instruction takes: its opcode alone decides (R60). -/
def Instr.words (i : Instr) : Nat := opcodeWords i.opcode

end Sys2Proof
end

