-- ==== Sys2Proof/Config.lean ====
section
/-! DEFINITION. The spec's named parameters (R3) at the values the spec decides, and the free values:
opaque constants that no proof can evaluate. -/

namespace Sys2Proof

/-- MISALIGNED_POLICY (R37): what an access to an odd RAM address does. -/
inductive MisalignedPolicy where
  /-- The access raises MisalignedAccess. -/
  | fault
  /-- The access uses the two bytes at `a` and `a + 1`, unless the second is a device address. -/
  | split
  deriving DecidableEq, Repr

/-- CO_POLICY (R18): what an instruction of class ZN does to the flags C and O. -/
inductive CoPolicy where
  /-- C and O stay as they were. -/
  | unchanged
  /-- C and O each become an arbitrary bit. -/
  | any
  deriving DecidableEq, Repr

/-- DIV_ZERO_POLICY (R95): what a division by zero does; the spec gives it one value. -/
inductive DivZeroPolicy where
  /-- The division raises DivideByZero. -/
  | fault
  deriving DecidableEq, Repr

namespace Config

/-- The spec's value of MISALIGNED_POLICY (R3, R37, D16; log 4, safe). -/
def misalignedPolicy : MisalignedPolicy := .fault

/-- The spec's value of CO_POLICY (R3, R18, D9; log 5, unsafe). -/
def coPolicy : CoPolicy := .unchanged

/-- The spec's value of DIV_ZERO_POLICY (R3, R95, D13; log 19). -/
def divZeroPolicy : DivZeroPolicy := .fault

/-- PC_RESET (R3, R26, D25; log 3). -/
def pcReset : Word := 0x0000

/-- SP_RESET (R3, R26, R27, D26; log 3). -/
def spReset : Word := 0x0000

/-- DESIGN CHOICE, unsafe (log 1): the value each of R0..R7 holds in `State.reset`; the spec leaves
REG_RESET open (R26). -/
def regReset : Word := 0x0000

/-- DESIGN CHOICE, unsafe (log 1): the value each of Z, C, N, O holds in `State.reset`; the spec leaves
FLAGS_RESET open (R26). -/
def flagReset : Bool := false

/-- DESIGN CHOICE, unsafe (log 2): what a RAM byte that nothing has written reads as; the spec leaves
MEM_INIT open (R181). -/
def memFill : Byte := 0x00

/-- DevRead (R3, R39): the 16-bit value a device read returns, a FREE VALUE (log 6, safe). The first
argument numbers the draw, so that two reads of one register may differ; the second is the address. -/
opaque devRead : Nat → Word → Word

/-- The arbitrary bit that CO_POLICY = any leaves in C or O (R18), a FREE VALUE (log 20, safe). The
argument numbers the draw. -/
opaque freeFlag : Nat → Bool

end Config

end Sys2Proof
end

