-- ==== Sys2Proof/Machine/State.lean ====
section
/-! DEFINITION. The architectural state, whole (10_state.md), the ways a step can stop, and the state
after reset. -/

namespace Sys2Proof.Machine

/-- The eight general registers (R10). None is hardwired. -/
structure RegFile where
  r0 : Word
  r1 : Word
  r2 : Word
  r3 : Word
  r4 : Word
  r5 : Word
  r6 : Word
  r7 : Word
  deriving DecidableEq, Repr

/-- FLAGS (R16). The reserved bits 15..4 are fixed at zero and not stored (R19; log 13). -/
structure Flags where
  /-- Zero, bit 0. -/
  z : Bool
  /-- Carry or borrow, bit 1. -/
  c : Bool
  /-- Negative, bit 2. -/
  n : Bool
  /-- Signed overflow, bit 3. -/
  o : Bool
  deriving DecidableEq, Repr

/-- Which access a MisalignedAccess fault reports (R161; log 11). -/
inductive AccessKind where
  | fetch
  | read
  | write
  deriving DecidableEq, Repr

/-- The four model-level faults of R161, each with the information the rule lists; `a0` is the address of
the faulting instruction. The step that meets one records it in the state and changes nothing else
(R162); the next step answers `Host.Outcome.fault` with the record (log 8). -/
inductive Fault where
  /-- Raised by decode: the first word `w` is no instruction (R55, R59). Safe: the model stops where a
  real machine might go on. -/
  | illegalInstruction (w a0 : Word)
  /-- Raised by fetch, MemRead or MemWrite at the odd RAM address `a` (R35, R36, R41). Safe. -/
  | misalignedAccess (a : Word) (kind : AccessKind) (a0 : Word)
  /-- Raised by fetch of an instruction word or address word at the device address `a` (R41). Safe. -/
  | fetchFromIO (a a0 : Word)
  /-- Raised by DIV with a zero divisor (R95). Safe. -/
  | divideByZero (a0 : Word)
  deriving DecidableEq, Repr

/-- Why there is no step although the machine did not fault. -/
inductive Refusal where
  /-- The instruction has no meaning in the model. No arm of `exec` answers it. Safe. -/
  | notModelled (mnemonic : String)
  /-- Raised by `step` in a halted state: the machine has no step (R21), the run has ended normally
  (R183; log 9). Safe. -/
  | halted
  deriving DecidableEq, Repr

/-- The direction of a device access (R23). -/
inductive IoKind where
  | read
  | write
  deriving DecidableEq, Repr

/-- One device access (R23): its kind, its address in 0xF000..0xF0FF, and the 16-bit value returned or
written. -/
structure IoEvent where
  kind : IoKind
  addr : Word
  value : Word
  deriving DecidableEq, Repr

/-- RAM (R30, R32) as its listed bytes, in the canonical form of `Memory.wf`; an unlisted byte reads as
`Config.memFill` (log 2). -/
abbrev Memory := List Host.Cell

/-- Everything the spec gives the machine (10_state.md), and the model's own counter of free values. -/
structure State where
  /-- `R0`..`R7` (R10). -/
  regs : RegFile
  /-- The program counter (R11 to R13). -/
  pc : Word
  /-- The stack pointer (R14, R15). -/
  sp : Word
  /-- FLAGS (R16 to R20). -/
  flags : Flags
  /-- RAM (R30 to R32). -/
  mem : Memory
  /-- The run state after HALT (R21). -/
  halted : Bool
  /-- The record of a model-level fault (R22). -/
  fault : Option Fault
  /-- The trace of device accesses, oldest first (R23). -/
  io : List IoEvent
  /-- The MODEL's own: how many free values have been drawn (log 6). -/
  draws : Nat
  deriving DecidableEq, Repr

/-- The machine right after reset (R26, R180): what the spec decides as it says, and what it leaves open
at the values of log 1 and log 2. Every reset state the spec allows is `State.IsReset`. -/
def State.reset : State where
  regs :=
    { r0 := Config.regReset, r1 := Config.regReset, r2 := Config.regReset, r3 := Config.regReset,
      r4 := Config.regReset, r5 := Config.regReset, r6 := Config.regReset, r7 := Config.regReset }
  pc := Config.pcReset
  sp := Config.spReset
  flags :=
    { z := Config.flagReset, c := Config.flagReset, n := Config.flagReset, o := Config.flagReset }
  mem := []
  halted := false
  fault := none
  io := []
  draws := 0

end Sys2Proof.Machine
end

