-- ==== Sys2Proof/Machine/Memory.lean ====
section
/-! DEFINITION. The address map (R30 to R32, R39) and RAM byte by byte, in its canonical form. -/

namespace Sys2Proof.Machine

/-! ### The address map (R31) -/

/-- The four ranges of the memory map (R31). Their purposes are conventions; only Memory-Mapped I/O is
treated differently (R32). -/
inductive Region where
  | programMemory
  | dataMemory
  | memoryMappedIO
  | stack
  deriving DecidableEq, Repr

/-- The range an address lies in (R31). -/
def regionOf (a : Word) : Region :=
  if a.toNat ≤ 0x7FFF then .programMemory
  else if a.toNat ≤ 0xEFFF then .dataMemory
  else if a.toNat ≤ 0xF0FF then .memoryMappedIO
  else .stack

/-- `0xF000 <= a <= 0xF0FF`: a device address (R31, R38). -/
def isIO (a : Word) : Bool := decide (0xF000 ≤ a.toNat) && decide (a.toNat ≤ 0xF0FF)

/-- `a[0] == 1`: an odd address (R37). -/
def isOdd (a : Word) : Bool := a.getLsbD 0

/-- The device registers (R39); 0xF004..0xF0FF have no device (R40). -/
inductive DeviceReg where
  | consoleOutput
  | consoleInput
  | timerControl
  | timerValue
  | unassigned
  deriving DecidableEq, Repr

/-- The device register a device access to `a` reaches, selected by the address alone (R38 to R40). -/
def deviceAt (a : Word) : DeviceReg :=
  if a = 0xF000 then .consoleOutput
  else if a = 0xF001 then .consoleInput
  else if a = 0xF002 then .timerControl
  else if a = 0xF003 then .timerValue
  else .unassigned

/-! ### RAM -/

/-- There is a RAM byte at this address: the 64 KB less the device range (R32, R38). -/
def isRam (a : Nat) : Bool := decide (a < 0x10000) && !(decide (0xF000 ≤ a) && decide (a ≤ 0xF0FF))

/-- `mem[a]` (R4): the listed byte, or what a byte that nothing has written reads as (log 2). -/
def Memory.read : Memory → Nat → Byte
  | [], _ => Config.memFill
  | (k, b) :: m, a => if a = k then b else Memory.read m a

/-- The memory with the byte at `a` no longer listed. -/
def Memory.erase (m : Memory) (a : Nat) : Memory := m.filter (fun x => x.1 != a)

/-- The memory with one more byte listed, before the first entry of a higher address. -/
def Memory.insert : Memory → Nat → Byte → Memory
  | [], a, v => [(a, v)]
  | (k, b) :: m, a, v => if a < k then (a, v) :: (k, b) :: m else (k, b) :: Memory.insert m a v

/-- `mem[a] <- v` (R4), keeping the canonical form: writing the byte an unlisted address reads as removes
the entry. -/
def Memory.write (m : Memory) (a : Nat) (v : Byte) : Memory :=
  if v = Config.memFill then m.erase a else (m.erase a).insert a v

/-- The canonical form: addresses strictly rising, every entry at a RAM address, no entry equal to what
an unlisted address reads as. -/
abbrev Memory.wf (m : Memory) : Prop :=
  m.Pairwise (fun x y => x.1 < y.1) ∧ ∀ x ∈ m, isRam x.1 = true ∧ x.2 ≠ Config.memFill

end Sys2Proof.Machine
end

