-- ==== Sys2Proof/Machine/Ops.lean ====
section
/-! DEFINITION. The named operations over registers, memory, devices and the stack, and taking a fault. -/

namespace Sys2Proof.Machine

/-! ### Registers (R10) -/

/-- The value of a register in the file (R10). -/
def RegFile.get (f : RegFile) : Reg → Word
  | .r0 => f.r0
  | .r1 => f.r1
  | .r2 => f.r2
  | .r3 => f.r3
  | .r4 => f.r4
  | .r5 => f.r5
  | .r6 => f.r6
  | .r7 => f.r7

/-- The file with one register replaced (R10). -/
def RegFile.set (f : RegFile) (r : Reg) (v : Word) : RegFile :=
  match r with
  | .r0 => { f with r0 := v }
  | .r1 => { f with r1 := v }
  | .r2 => { f with r2 := v }
  | .r3 => { f with r3 := v }
  | .r4 => { f with r4 := v }
  | .r5 => { f with r5 := v }
  | .r6 => { f with r6 := v }
  | .r7 => { f with r7 := v }

/-- `x[r]` (R4). -/
def State.reg (s : State) (r : Reg) : Word := s.regs.get r

/-- `x[r] <- v` (R4). -/
def State.setReg (s : State) (r : Reg) (v : Word) : State := { s with regs := s.regs.set r v }

/-- `pc <- v` (R4), unchecked (R13). -/
def State.setPc (s : State) (v : Word) : State := { s with pc := v }

/-- The program counter past an instruction of `nbytes` bytes, modulo 2^16 (R12, R42). -/
def State.advance (s : State) (nbytes : Word) : State := s.setPc (s.pc + nbytes)

/-- `sp <- v`. Only PUSH, POP, CALL and RET do this (R14). -/
def State.setSp (s : State) (v : Word) : State := { s with sp := v }

/-- All four flags. -/
def State.setFlags (s : State) (f : Flags) : State := { s with flags := f }

/-- RAM. -/
def State.setMem (s : State) (m : Memory) : State := { s with mem := m }

/-- `halted <- true` (R21, R151). -/
def State.halt (s : State) : State := { s with halted := true }

/-- `fault` set to a fault value (R22). -/
def State.recordFault (s : State) (f : Fault) : State := { s with fault := some f }

/-- `io <- io ++ [e]` (R23, R38). -/
def State.logIo (s : State) (e : IoEvent) : State := { s with io := s.io ++ [e] }

/-- One more free value has been drawn (log 6). -/
def State.draw (s : State) : State := { s with draws := s.draws + 1 }

/-! ### Taking a fault (R162, R165) -/

/-- Taking a fault: `s` is the state before the whole step, so every other piece of state, `pc` included,
keeps the value it had before the step, and `fault` is set (R61, R162). Nothing is saved and control
goes nowhere (R165); there is no return (R166). The next step has none (log 8). -/
def State.takeFault (s : State) (f : Fault) : Host.Outcome State Fault Refusal :=
  .next (s.recordFault f)

/-! ### RAM words (R33) -/

/-- `mem[a]` for a RAM byte. -/
def State.byte (s : State) (a : Nat) : Byte := s.mem.read a

/-- `{ mem[a + 1], mem[a] }`, the address of the second byte modulo 2^16 (R33, R35, R42). -/
def State.ramWord (s : State) (a : Word) : Word :=
  Word.ofBytes (s.byte a.toNat) (s.byte (a + 1).toNat)

/-- `mem[a] <- v[7:0]; mem[a + 1] <- v[15:8]`, both bytes in one step (R33, R36, R46). -/
def State.setRamWord (s : State) (a v : Word) : State :=
  s.setMem ((s.mem.write a.toNat (Word.lo v)).write (a + 1).toNat (Word.hi v))

/-- An access to the RAM address `a` is refused as misaligned (R37): under `fault` when `a` is odd, under
`split` when `a` is odd and the second byte would be a device address (only `a = 0xEFFF`). -/
def misaligned (pol : MisalignedPolicy) (a : Word) : Bool :=
  match pol with
  | .fault => isOdd a
  | .split => isOdd a && isIO (a + 1)

/-! ### Devices (R38 to R40) -/

/-- `DeviceRead(a)` (R38): a fresh free value, recorded in the trace. The same for every device register,
assigned or not (R39, R40). -/
def State.deviceRead (s : State) (a : Word) : Word × State :=
  (Config.devRead s.draws a, (s.logIo ⟨.read, a, Config.devRead s.draws a⟩).draw)

/-- `DeviceWrite(a, v)` (R38): recorded in the trace, with no other effect on the machine (R39, R40;
log 7). -/
def State.deviceWrite (s : State) (a v : Word) : State := s.logIo ⟨.write, a, v⟩

/-! ### The access primitives (R35, R36, R41)

Each takes the state before the step, whose `pc` is the address `a0` the fault record names (R161). -/

/-- `MemRead(a, 2)` (R35). -/
def State.memRead (pol : MisalignedPolicy) (s : State) (a : Word) : Except Fault (Word × State) :=
  if isIO a then .ok (s.deviceRead a)
  else if misaligned pol a then .error (.misalignedAccess a .read s.pc)
  else .ok (s.ramWord a, s)

/-- `MemWrite(a, 2, v)` (R36). -/
def State.memWrite (pol : MisalignedPolicy) (s : State) (a v : Word) : Except Fault State :=
  if isIO a then .ok (s.deviceWrite a v)
  else if misaligned pol a then .error (.misalignedAccess a .write s.pc)
  else .ok (s.setRamWord a v)

/-- `FetchWord(a)` (R41): from any RAM address, never from a device address. -/
def State.fetchWord (pol : MisalignedPolicy) (s : State) (a : Word) : Except Fault Word :=
  if isIO a then .error (.fetchFromIO a s.pc)
  else if misaligned pol a then .error (.misalignedAccess a .fetch s.pc)
  else .ok (s.ramWord a)

/-! ### The stack (R15) -/

/-- The address a push writes to: `(sp - 2) mod 2^16` (R15). -/
def State.pushAddr (s : State) : Word := s.sp - 2

/-- A push (R15): the word goes to `sp - 2`, which `sp` then holds. -/
def State.pushWord (pol : MisalignedPolicy) (s : State) (v : Word) : Except Fault State :=
  match s.memWrite pol s.pushAddr v with
  | .error f => .error f
  | .ok t => .ok (t.setSp s.pushAddr)

/-- A pop (R15): the word at `sp`, and `sp + 2` afterwards. -/
def State.popWord (pol : MisalignedPolicy) (s : State) : Except Fault (Word × State) :=
  match s.memRead pol s.sp with
  | .error f => .error f
  | .ok (v, t) => .ok (v, t.setSp (s.sp + 2))

/-! ### Fetching an instruction (R60, R61) -/

/-- The fetch and decode of one step (R61): the first word at `pc`, its decoding, then the address word
of a Direct-format instruction at `pc + 2`. The first fault met is the one reported (R163). -/
def State.fetchInstr (pol : MisalignedPolicy) (s : State) : Except Fault Instr :=
  match s.fetchWord pol s.pc with
  | .error f => .error f
  | .ok w =>
    match decodeFirst w with
    | .error _ => .error (.illegalInstruction w s.pc)
    | .ok (.whole i) => .ok i
    | .ok (.direct d) =>
      match s.fetchWord pol (s.pc + 2) with
      | .error f => .error f
      | .ok addr => .ok (d.withAddr addr)

end Sys2Proof.Machine
end

