-- ==== Sys2Proof/Machine/Operands.lean ====
section
/-! DEFINITION. Operand forms and addressing modes (R49, R56). -/

namespace Sys2Proof.Machine

/-- `zext_16(imm4)` (R56). -/
def zext4 (imm : BitVec 4) : Word := imm.setWidth 16

/-- `zext_16(imm7)` (R56). -/
def zext7 (imm : BitVec 7) : Word := imm.setWidth 16

/-- Register Indirect with Offset: `ea = (x[base] + zext_16(imm4)) mod 2^16`, the offset in bytes (R49);
offset 0 is Register Indirect. The base register is not modified. -/
def State.effAddr (s : State) (base : Reg) (off : BitVec 4) : Word := s.reg base + zext4 off

/-- Direct: `ea = addr`, the second instruction word as it is (R49, R56). -/
def directAddr (addr : Word) : Word := addr

end Sys2Proof.Machine
end

