-- ==== Sys2Proof/Machine/Flags.lean ====
section
/-! DEFINITION. The flag functions (R17), which flags a class of instructions writes (R18), and the write-back
of a result. -/

namespace Sys2Proof.Machine

/-- FLAGS as the 16-bit register of R16: Z, C, N, O in bits 0 to 3, bits 15..4 zero (R19). -/
def Flags.toWord (f : Flags) : Word :=
  0#12 ++ BitVec.ofBool f.o ++ BitVec.ofBool f.n ++ BitVec.ofBool f.c ++ BitVec.ofBool f.z

/-- `FlagsAdd(a, b)` (R17): the sum modulo 2^16 and its flags; C is the carry out of bit 15. -/
def flagsAdd (a b : Word) : Word × Flags :=
  let sum := a.toNat + b.toNat
  let r := BitVec.ofNat 16 sum
  (r, { z := r == 0
        c := decide (65536 ≤ sum)
        n := r.msb
        o := a.msb == b.msb && r.msb != a.msb })

/-- `FlagsSub(a, b)` (R17): the difference modulo 2^16 and its flags; C is the borrow. -/
def flagsSub (a b : Word) : Word × Flags :=
  let r := a - b
  (r, { z := r == 0
        c := decide (a.toNat < b.toNat)
        n := r.msb
        o := a.msb != b.msb && r.msb != a.msb })

/-- `ZN(r)` with C and O per CO_POLICY (R17, R18). Under `any` C and O are two fresh free bits (log 20). -/
def State.setZN (pol : CoPolicy) (s : State) (r : Word) : State :=
  match pol with
  | .unchanged => s.setFlags { s.flags with z := r == 0, n := r.msb }
  | .any =>
    ((s.setFlags { z := r == 0
                   c := Config.freeFlag s.draws
                   n := r.msb
                   o := Config.freeFlag (s.draws + 1) }).draw).draw

/-- The end of a one-word instruction of class AS that writes a register (R18): `x[rd]` takes the result,
all four flags are written. -/
def State.finishAS (s : State) (rd : Reg) (p : Word × Flags) : Host.Outcome State Fault Refusal :=
  .next (((s.setReg rd p.1).setFlags p.2).advance 2)

/-- The end of a one-word instruction of class ZN (R18): `x[rd]` takes the result, Z and N are written
from it, C and O per CO_POLICY. Every meaning of the class calls it under `Config.coPolicy`. -/
def State.finishZN (s : State) (pol : CoPolicy) (rd : Reg) (r : Word) :
    Host.Outcome State Fault Refusal :=
  .next (((s.setReg rd r).setZN pol r).advance 2)

end Sys2Proof.Machine
end

