-- ==== Sys2Proof/Machine/Arithmetic.lean ====
section
/-! DEFINITION. ADD, ADDI, SUB, SUBI, MUL, DIV, INC, DEC (41_arithmetic.md, R90 to R98). -/

namespace Sys2Proof.Machine

/-- `ADD Rd, Rs, Rt` (R90). -/
def execAdd (rd rs rt : Reg) (s : State) : Host.Outcome State Fault Refusal :=
  s.finishAS rd (flagsAdd (s.reg rs) (s.reg rt))

/-- `ADDI Rd, Rs, Imm` (R91). -/
def execAddi (rd rs : Reg) (imm : BitVec 4) (s : State) : Host.Outcome State Fault Refusal :=
  s.finishAS rd (flagsAdd (s.reg rs) (zext4 imm))

/-- `SUB Rd, Rs, Rt` (R92). -/
def execSub (rd rs rt : Reg) (s : State) : Host.Outcome State Fault Refusal :=
  s.finishAS rd (flagsSub (s.reg rs) (s.reg rt))

/-- `SUBI Rd, Rs, Imm` (R93). -/
def execSubi (rd rs : Reg) (imm : BitVec 4) (s : State) : Host.Outcome State Fault Refusal :=
  s.finishAS rd (flagsSub (s.reg rs) (zext4 imm))

/-- `MUL Rd, Rs, Rt` (R94): the low 16 bits of the product. -/
def execMul (rd rs rt : Reg) (s : State) : Host.Outcome State Fault Refusal :=
  s.finishZN Config.coPolicy rd (BitVec.ofNat 16 ((s.reg rs).toNat * (s.reg rt).toNat))

/-- `DIV Rd, Rs, Rt` (R95): unsigned, truncating; a zero divisor raises DivideByZero. -/
def execDiv (rd rs rt : Reg) (s : State) : Host.Outcome State Fault Refusal :=
  if s.reg rt = 0 then
    match Config.divZeroPolicy with
    | .fault => s.takeFault (.divideByZero s.pc)
  else s.finishZN Config.coPolicy rd (BitVec.ofNat 16 ((s.reg rs).toNat / (s.reg rt).toNat))

/-- `INC Rd` (R96): all four flags, as an addition of 1. -/
def execInc (rd : Reg) (s : State) : Host.Outcome State Fault Refusal :=
  s.finishAS rd (flagsAdd (s.reg rd) 1)

/-- `DEC Rd` (R97): all four flags, as a subtraction of 1. -/
def execDec (rd : Reg) (s : State) : Host.Outcome State Fault Refusal :=
  s.finishAS rd (flagsSub (s.reg rd) 1)

end Sys2Proof.Machine
end

