-- ==== Sys2Proof/Machine/Branch.lean ====
section
/-! DEFINITION. JMP, JZ, JNZ, JC, JNC, JN, CALL, RET (45_branch.md, R130 to R138). None writes a flag or a
general register. -/

namespace Sys2Proof.Machine

/-- A jump taken or not (R138): the target is copied to `pc` unchecked, or `pc` is the address after both
words. -/
def State.jumpIf (s : State) (taken : Bool) (addr : Word) : Host.Outcome State Fault Refusal :=
  .next (if taken then s.setPc addr else s.advance 4)

/-- `JMP Addr` (R130). -/
def execJmp (addr : Word) (s : State) : Host.Outcome State Fault Refusal := s.jumpIf true addr

/-- `JZ Addr` (R131). -/
def execJz (addr : Word) (s : State) : Host.Outcome State Fault Refusal := s.jumpIf s.flags.z addr

/-- `JNZ Addr` (R132). -/
def execJnz (addr : Word) (s : State) : Host.Outcome State Fault Refusal := s.jumpIf (!s.flags.z) addr

/-- `JC Addr` (R133). -/
def execJc (addr : Word) (s : State) : Host.Outcome State Fault Refusal := s.jumpIf s.flags.c addr

/-- `JNC Addr` (R134). -/
def execJnc (addr : Word) (s : State) : Host.Outcome State Fault Refusal := s.jumpIf (!s.flags.c) addr

/-- `JN Addr` (R135). -/
def execJn (addr : Word) (s : State) : Host.Outcome State Fault Refusal := s.jumpIf s.flags.n addr

/-- `CALL Addr` (R136): pushes `a0 + 4`, the address after both words. -/
def execCall (addr : Word) (s : State) : Host.Outcome State Fault Refusal :=
  match s.pushWord Config.misalignedPolicy (s.pc + 4) with
  | .error f => s.takeFault f
  | .ok t => .next (t.setPc addr)

/-- `RET` (R137): pops `pc`. -/
def execRet (s : State) : Host.Outcome State Fault Refusal :=
  match s.popWord Config.misalignedPolicy with
  | .error f => s.takeFault f
  | .ok (v, t) => .next (t.setPc v)

end Sys2Proof.Machine
end

