-- ==== Sys2Proof/Machine/Compare.lean ====
section
/-! DEFINITION. CMP, CMPI (44_compare.md, R125, R126): a subtraction whose result is discarded. -/

namespace Sys2Proof.Machine

/-- `CMP Rs, Rt` (R125). -/
def execCmp (rs rt : Reg) (s : State) : Host.Outcome State Fault Refusal :=
  .next ((s.setFlags (flagsSub (s.reg rs) (s.reg rt)).2).advance 2)

/-- `CMPI Rs, Imm` (R126). -/
def execCmpi (rs : Reg) (imm : BitVec 4) (s : State) : Host.Outcome State Fault Refusal :=
  .next ((s.setFlags (flagsSub (s.reg rs) (zext4 imm)).2).advance 2)

end Sys2Proof.Machine
end

