-- ==== Sys2Proof/Machine/DataMovement.lean ====
section
/-! DEFINITION. MOV, MOVI, LOAD, STORE (40_data_movement.md, R80 to R85). None writes a flag.

Every meaning takes the state before the step: `pc` is still `a0`, and it moves past the instruction
itself, so that a fault can leave the state as it was (R162). -/

namespace Sys2Proof.Machine

/-- The end of a load of `nbytes` bytes: `x[rd]` takes the word read at `ea` (R82, R83). -/
def State.loadFrom (s : State) (ea : Word) (rd : Reg) (nbytes : Word) :
    Host.Outcome State Fault Refusal :=
  match s.memRead Config.misalignedPolicy ea with
  | .error f => s.takeFault f
  | .ok (v, t) => .next ((t.setReg rd v).advance nbytes)

/-- A store of `nbytes` bytes: the word `v` goes to `ea` (R84, R85). -/
def State.storeTo (s : State) (ea v nbytes : Word) : Host.Outcome State Fault Refusal :=
  match s.memWrite Config.misalignedPolicy ea v with
  | .error f => s.takeFault f
  | .ok t => .next (t.advance nbytes)

/-- `MOV Rd, Rs` (R80). -/
def execMov (rd rs : Reg) (s : State) : Host.Outcome State Fault Refusal :=
  .next ((s.setReg rd (s.reg rs)).advance 2)

/-- `MOVI Rd, Imm` (R81): the whole register is written. -/
def execMovi (rd : Reg) (imm : BitVec 7) (s : State) : Host.Outcome State Fault Refusal :=
  .next ((s.setReg rd (zext7 imm)).advance 2)

/-- `LOAD Rd, [Rs+Imm]` (R82). -/
def execLoadInd (rd rs : Reg) (off : BitVec 4) (s : State) : Host.Outcome State Fault Refusal :=
  s.loadFrom (s.effAddr rs off) rd 2

/-- `LOAD Rd, Addr` (R83). -/
def execLoadDir (rd : Reg) (addr : Word) (s : State) : Host.Outcome State Fault Refusal :=
  s.loadFrom (directAddr addr) rd 4

/-- `STORE Rs, [Rd+Imm]` (R84): the `rd` field is the base. -/
def execStoreInd (rs rd : Reg) (off : BitVec 4) (s : State) : Host.Outcome State Fault Refusal :=
  s.storeTo (s.effAddr rd off) (s.reg rs) 2

/-- `STORE Rs, Addr` (R85). -/
def execStoreDir (rs : Reg) (addr : Word) (s : State) : Host.Outcome State Fault Refusal :=
  s.storeTo (directAddr addr) (s.reg rs) 4

end Sys2Proof.Machine
end

