-- ==== Sys2Proof/Machine/Logical.lean ====
section
/-! DEFINITION. AND, ANDI, OR, ORI, XOR, NOT (42_logical.md, R105 to R110), all of flag class ZN. -/

namespace Sys2Proof.Machine

/-- `AND Rd, Rs, Rt` (R105). -/
def execAnd (rd rs rt : Reg) (s : State) : Host.Outcome State Fault Refusal :=
  s.finishZN Config.coPolicy rd (s.reg rs &&& s.reg rt)

/-- `ANDI Rd, Rs, Imm` (R106). -/
def execAndi (rd rs : Reg) (imm : BitVec 4) (s : State) : Host.Outcome State Fault Refusal :=
  s.finishZN Config.coPolicy rd (s.reg rs &&& zext4 imm)

/-- `OR Rd, Rs, Rt` (R107). -/
def execOr (rd rs rt : Reg) (s : State) : Host.Outcome State Fault Refusal :=
  s.finishZN Config.coPolicy rd (s.reg rs ||| s.reg rt)

/-- `ORI Rd, Rs, Imm` (R108). -/
def execOri (rd rs : Reg) (imm : BitVec 4) (s : State) : Host.Outcome State Fault Refusal :=
  s.finishZN Config.coPolicy rd (s.reg rs ||| zext4 imm)

/-- `XOR Rd, Rs, Rt` (R109). -/
def execXor (rd rs rt : Reg) (s : State) : Host.Outcome State Fault Refusal :=
  s.finishZN Config.coPolicy rd (s.reg rs ^^^ s.reg rt)

/-- `NOT Rd, Rs` (R110): the one's complement. -/
def execNot (rd rs : Reg) (s : State) : Host.Outcome State Fault Refusal :=
  s.finishZN Config.coPolicy rd (~~~(s.reg rs))

end Sys2Proof.Machine
end

