-- ==== Sys2Proof/Machine/Shift.lean ====
section
/-! DEFINITION. SHL, SHLI, SHR, SHRI (43_shift.md, R115 to R119), all of flag class ZN. -/

namespace Sys2Proof.Machine

/-- `(a * 2^n) mod 2^16`, which is 0 for `n >= 16` (R115, R119). -/
def shiftLeft (a : Word) (n : Nat) : Word :=
  if 16 ≤ n then 0 else BitVec.ofNat 16 (a.toNat * 2 ^ n)

/-- `a div 2^n`, which is 0 for `n >= 16` (R117, R119). -/
def shiftRight (a : Word) (n : Nat) : Word :=
  if 16 ≤ n then 0 else BitVec.ofNat 16 (a.toNat / 2 ^ n)

/-- `SHL Rd, Rs, Rt` (R115): the amount is all of `x[rt]`, unmasked (R119). -/
def execShl (rd rs rt : Reg) (s : State) : Host.Outcome State Fault Refusal :=
  s.finishZN Config.coPolicy rd (shiftLeft (s.reg rs) (s.reg rt).toNat)

/-- `SHLI Rd, Rs, Imm` (R116). -/
def execShli (rd rs : Reg) (imm : BitVec 4) (s : State) : Host.Outcome State Fault Refusal :=
  s.finishZN Config.coPolicy rd (shiftLeft (s.reg rs) imm.toNat)

/-- `SHR Rd, Rs, Rt` (R117): logical; the amount is all of `x[rt]`, unmasked (R119). -/
def execShr (rd rs rt : Reg) (s : State) : Host.Outcome State Fault Refusal :=
  s.finishZN Config.coPolicy rd (shiftRight (s.reg rs) (s.reg rt).toNat)

/-- `SHRI Rd, Rs, Imm` (R118): logical. -/
def execShri (rd rs : Reg) (imm : BitVec 4) (s : State) : Host.Outcome State Fault Refusal :=
  s.finishZN Config.coPolicy rd (shiftRight (s.reg rs) imm.toNat)

end Sys2Proof.Machine
end

