-- ==== Sys2Proof/Machine/Stack.lean ====
section
/-! DEFINITION. PUSH, POP (46_stack.md, R145, R146). -/

namespace Sys2Proof.Machine

/-- `PUSH Rs` (R145). -/
def execPush (rs : Reg) (s : State) : Host.Outcome State Fault Refusal :=
  match s.pushWord Config.misalignedPolicy (s.reg rs) with
  | .error f => s.takeFault f
  | .ok t => .next (t.advance 2)

/-- `POP Rd` (R146). -/
def execPop (rd : Reg) (s : State) : Host.Outcome State Fault Refusal :=
  match s.popWord Config.misalignedPolicy with
  | .error f => s.takeFault f
  | .ok (v, t) => .next ((t.setReg rd v).advance 2)

end Sys2Proof.Machine
end

