-- ==== Sys2Proof/Machine/System.lean ====
section
/-! DEFINITION. NOP, HALT (47_system.md, R150, R151). -/

namespace Sys2Proof.Machine

/-- `NOP` (R150): only `pc` moves. -/
def execNop (s : State) : Host.Outcome State Fault Refusal := .next (s.advance 2)

/-- `HALT` (R151): `halted` is set and `pc` is the address after it. -/
def execHalt (s : State) : Host.Outcome State Fault Refusal := .next (s.halt.advance 2)

end Sys2Proof.Machine
end

