-- ==== Sys2Proof/Machine/Dispatch.lean ====
section
/-! DEFINITION. `exec`: one arm per instruction, each a call of its meaning. -/

namespace Sys2Proof.Machine

/-- `Execute(I)` (R61), on the state before the step (log 17). -/
def exec (i : Instr) (s : State) : Host.Outcome State Fault Refusal :=
  match i with
  | .mov rd rs => Sys2Proof.Machine.execMov rd rs s
  | .nop => Sys2Proof.Machine.execNop s
  | .movi rd imm => Sys2Proof.Machine.execMovi rd imm s
  | .loadInd rd rs off => Sys2Proof.Machine.execLoadInd rd rs off s
  | .loadDir rd addr => Sys2Proof.Machine.execLoadDir rd addr s
  | .storeInd rs rd off => Sys2Proof.Machine.execStoreInd rs rd off s
  | .storeDir rs addr => Sys2Proof.Machine.execStoreDir rs addr s
  | .add rd rs rt => Sys2Proof.Machine.execAdd rd rs rt s
  | .addi rd rs imm => Sys2Proof.Machine.execAddi rd rs imm s
  | .sub rd rs rt => Sys2Proof.Machine.execSub rd rs rt s
  | .subi rd rs imm => Sys2Proof.Machine.execSubi rd rs imm s
  | .mul rd rs rt => Sys2Proof.Machine.execMul rd rs rt s
  | .div rd rs rt => Sys2Proof.Machine.execDiv rd rs rt s
  | .inc rd => Sys2Proof.Machine.execInc rd s
  | .dec rd => Sys2Proof.Machine.execDec rd s
  | .and rd rs rt => Sys2Proof.Machine.execAnd rd rs rt s
  | .andi rd rs imm => Sys2Proof.Machine.execAndi rd rs imm s
  | .or rd rs rt => Sys2Proof.Machine.execOr rd rs rt s
  | .ori rd rs imm => Sys2Proof.Machine.execOri rd rs imm s
  | .xor rd rs rt => Sys2Proof.Machine.execXor rd rs rt s
  | .not rd rs => Sys2Proof.Machine.execNot rd rs s
  | .shl rd rs rt => Sys2Proof.Machine.execShl rd rs rt s
  | .shli rd rs imm => Sys2Proof.Machine.execShli rd rs imm s
  | .shr rd rs rt => Sys2Proof.Machine.execShr rd rs rt s
  | .shri rd rs imm => Sys2Proof.Machine.execShri rd rs imm s
  | .cmp rs rt => Sys2Proof.Machine.execCmp rs rt s
  | .cmpi rs imm => Sys2Proof.Machine.execCmpi rs imm s
  | .jmp addr => Sys2Proof.Machine.execJmp addr s
  | .jz addr => Sys2Proof.Machine.execJz addr s
  | .jnz addr => Sys2Proof.Machine.execJnz addr s
  | .jc addr => Sys2Proof.Machine.execJc addr s
  | .jnc addr => Sys2Proof.Machine.execJnc addr s
  | .jn addr => Sys2Proof.Machine.execJn addr s
  | .call addr => Sys2Proof.Machine.execCall addr s
  | .ret => Sys2Proof.Machine.execRet s
  | .push rs => Sys2Proof.Machine.execPush rs s
  | .pop rd => Sys2Proof.Machine.execPop rd s
  | .halt => Sys2Proof.Machine.execHalt s

end Sys2Proof.Machine
end

