-- ==== Sys2Proof/Machine/Load.lean ====
section
/-! DEFINITION. What the host does before a run: the reset states the spec allows (R26, R180) and the program
load (R181, R188). -/

namespace Sys2Proof.Machine

/-- A RAM byte placed by the host before a run; a device address has no RAM byte (R38). -/
def State.placeByte (s : State) (a : Nat) (v : Byte) : State :=
  if isRam a then s.setMem (s.mem.write a v) else s

/-- A list of bytes placed from address `a` upward, modulo 2^16 (R42). -/
def State.placeBytes (s : State) (a : Word) : List Byte → State
  | [] => s
  | b :: bs => (s.placeByte a.toNat b).placeBytes (a + 1) bs

/-- A reset state as the spec allows it (R26, R180): what the spec decides is decided; registers, flags
and RAM are any. `State.reset` is one of them. -/
def State.IsReset (s : State) : Prop :=
  s.pc = Config.pcReset ∧ s.sp = Config.spReset ∧ s.halted = false ∧ s.fault = none ∧ s.io = []
    ∧ s.mem.wf

/-- The image fits below 0xF000, as it must (R181). -/
def imageFits (image : List Word) : Bool := decide (2 * image.length ≤ 0xF000)

/-- The program image in RAM from 0x0000 upward, little-endian (R181); no state when it does not fit. -/
def State.loadImage (s : State) (image : List Word) : Option State :=
  if imageFits image then some (s.placeBytes 0x0000 (image.flatMap Word.bytes)) else none

end Sys2Proof.Machine
end

