-- ==== Sys2Proof/Machine/Step.lean ====
section
/-! DEFINITION. One step of the machine (R61), and the placing of one instruction where it fetches. -/

namespace Sys2Proof.Machine

/-- `Step()` (R61), defined when `fault == none` and `halted == false`. A faulted machine has no step: it
stops with the fault it recorded (R22, R162; log 8). A halted one has none either (R21; log 9). -/
def step (s : State) : Host.Outcome State Fault Refusal :=
  match s.fault with
  | some f => .fault f
  | none =>
    if s.halted then .refused .halted
    else
      match s.fetchInstr Config.misalignedPolicy with
      | .error f => s.takeFault f
      | .ok i => exec i s

/-- `s` with an instruction of the opcode table, two words long at most, stored at `pc`, where `step`
fetches (log 12, log 16). Nothing else changes. -/
def State.withFetchWord (s : State) (nbits w : Nat) : State := s.placeBytes s.pc (tableBytes nbits w)

end Sys2Proof.Machine
end

