-- ==== Sys2Proof/Machine/Assembler.lean ====
section
/-! DEFINITION. The assembler syntax the source gives (R66 to R72): lines, literals, labels, operand forms, the
choice between the two opcodes of LOAD and of STORE, range checks, placement, and the way back to
syntax. What R66 to R72 leave open of the lexical form is log 15. -/

namespace Sys2Proof.Machine

/-- Source text, character by character. -/
abbrev Text := List Char

/-- Why a source is no program: an assembly error, never a silent truncation (R72). -/
inductive AsmError where
  /-- The line has not the form of R66, or holds a character no token has. -/
  | badLine
  /-- The word in the place of the mnemonic is none of R70's. -/
  | unknownMnemonic (word : Text)
  /-- The operands are not those of the mnemonic's syntax (R58, R69). -/
  | badOperands
  /-- A value outside its range (R72). -/
  | outOfRange (n : Nat)
  /-- A label that no line defines (R68). -/
  | unknownLabel (name : Text)
  /-- A label that two lines define (log 15). -/
  | duplicateLabel (name : Text)
  deriving DecidableEq, Repr

/-! ### Mnemonics (R70) -/

/-- The 36 mnemonics of R58; LOAD and STORE have two opcodes each (R69). -/
inductive Mnemonic where
  | mov | nop | movi | load | store
  | add | addi | sub | subi | mul | div | inc | dec
  | and | andi | or | ori | xor | not
  | shl | shli | shr | shri
  | cmp | cmpi
  | jmp | jz | jnz | jc | jnc | jn | call | ret
  | push | pop | halt
  deriving DecidableEq, Repr

/-- Each mnemonic as the source writes it, in upper case (R66, R70). -/
def mnemonicTable : List (String × Mnemonic) :=
  [ ("MOV", .mov), ("NOP", .nop), ("MOVI", .movi), ("LOAD", .load), ("STORE", .store),
    ("ADD", .add), ("ADDI", .addi), ("SUB", .sub), ("SUBI", .subi), ("MUL", .mul), ("DIV", .div),
    ("INC", .inc), ("DEC", .dec), ("AND", .and), ("ANDI", .andi), ("OR", .or), ("ORI", .ori),
    ("XOR", .xor), ("NOT", .not), ("SHL", .shl), ("SHLI", .shli), ("SHR", .shr), ("SHRI", .shri),
    ("CMP", .cmp), ("CMPI", .cmpi), ("JMP", .jmp), ("JZ", .jz), ("JNZ", .jnz), ("JC", .jc),
    ("JNC", .jnc), ("JN", .jn), ("CALL", .call), ("RET", .ret), ("PUSH", .push), ("POP", .pop),
    ("HALT", .halt) ]

/-- The mnemonic a word spells (R70). -/
def Mnemonic.ofText (w : Text) : Option Mnemonic :=
  (mnemonicTable.find? (fun p => p.1.toList == w)).map Prod.snd

/-- A register's name (R10). -/
def regOfText (w : Text) : Option Reg :=
  (["R0", "R1", "R2", "R3", "R4", "R5", "R6", "R7"].zip
    [Reg.r0, Reg.r1, Reg.r2, Reg.r3, Reg.r4, Reg.r5, Reg.r6, Reg.r7]).find?
      (fun p => p.1.toList == w) |>.map Prod.snd

/-! ### Numeric literals (R67) -/

/-- The value of a digit character in bases up to 16. -/
def digitValue (c : Char) : Option Nat :=
  if '0'.toNat ≤ c.toNat ∧ c.toNat ≤ '9'.toNat then some (c.toNat - '0'.toNat)
  else if 'A'.toNat ≤ c.toNat ∧ c.toNat ≤ 'F'.toNat then some (c.toNat - 'A'.toNat + 10)
  else if 'a'.toNat ≤ c.toNat ∧ c.toNat ≤ 'f'.toNat then some (c.toNat - 'a'.toNat + 10)
  else none

/-- The digits `ds` in a base, after the value `acc` of the digits before them. -/
def digitsValue (base acc : Nat) : Text → Option Nat
  | [] => some acc
  | c :: ds =>
    match digitValue c with
    | some d => if d < base then digitsValue base (base * acc + d) ds else none
    | none => none

/-- A numeric literal: decimal, `0x` hexadecimal or `0b` binary (R67). -/
def numberOfText : Text → Option Nat
  | '0' :: 'x' :: d :: ds => digitsValue 16 0 (d :: ds)
  | '0' :: 'b' :: d :: ds => digitsValue 2 0 (d :: ds)
  | d :: ds => digitsValue 10 0 (d :: ds)
  | [] => none

/-! ### Tokens (R66) -/

/-- A token of a line. -/
inductive Token where
  | word (w : Text)
  | comma
  | colon
  | openBracket
  | closeBracket
  | plus
  deriving DecidableEq, Repr

/-- A character of a mnemonic, register, label or literal (log 15). -/
def isWordChar (c : Char) : Bool := c.isAlphanum || c == '_'

/-- The tokens so far: the word being read, if there is one, before the tokens after it. -/
def flushWord (acc : Text) (ts : List Token) : List Token :=
  if acc.isEmpty then ts else .word acc.reverse :: ts

/-- The token a punctuation character is (R66, R69). -/
def punctuation (c : Char) : Option Token :=
  if c = ',' then some .comma
  else if c = ':' then some .colon
  else if c = '[' then some .openBracket
  else if c = ']' then some .closeBracket
  else if c = '+' then some .plus
  else none

/-- The tokens of a line, `acc` the word being read, last character first; a comment runs from `;` to the
end of the line (R66). -/
def tokens (acc : Text) : Text → Except AsmError (List Token)
  | [] => .ok (flushWord acc [])
  | c :: cs =>
    if c = ';' then .ok (flushWord acc [])
    else if c = ' ' ∨ c = '\t' ∨ c = '\r' then (tokens [] cs).map (flushWord acc)
    else
      match punctuation c with
      | some t => (tokens [] cs).map (fun ts => flushWord acc (t :: ts))
      | none => if isWordChar c then tokens (c :: acc) cs else .error .badLine

/-! ### Lines (R66, R69) -/

/-- A number or a label where a value is expected (R68, R69). -/
inductive AsmValue where
  | num (n : Nat)
  | label (name : Text)
  deriving DecidableEq, Repr

/-- An operand as written (R69). -/
inductive Operand where
  /-- `Rn`. -/
  | reg (r : Reg)
  /-- A number or label without brackets: an immediate or an address. -/
  | value (v : AsmValue)
  /-- `[Rn]` (offset 0) or `[Rn+Imm]`. -/
  | mem (base : Reg) (off : AsmValue)
  deriving DecidableEq, Repr

/-- An instruction as written: mnemonic, then operands (R66). -/
structure AsmInstr where
  mnemonic : Mnemonic
  operands : List Operand
  deriving DecidableEq, Repr

/-- A source line: an optional label and an optional instruction (R66). -/
structure AsmLine where
  label : Option Text
  instr : Option AsmInstr
  deriving DecidableEq, Repr

/-- A word can be a label: it starts with a letter or `_` and is no register name (log 15). -/
def isLabelName : Text → Bool
  | [] => false
  | c :: cs => (c.isAlpha || c == '_') && (regOfText (c :: cs)).isNone

/-- A word where a value is expected: a literal (R67) or a label (R68). -/
def valueOfWord (w : Text) : Except AsmError AsmValue :=
  match numberOfText w with
  | some n => .ok (.num n)
  | none => if isLabelName w then .ok (.label w) else .error .badOperands

/-- A word that is an operand by itself: a register or a value (R69). -/
def operandOfWord (w : Text) : Except AsmError Operand :=
  match regOfText w with
  | some r => .ok (.reg r)
  | none => (valueOfWord w).map .value

/-- `[base+off]` as an operand (R69). -/
def memOperand (base : Text) (off : Except AsmError AsmValue) : Except AsmError Operand :=
  match regOfText base with
  | some r => off.map (.mem r)
  | none => .error .badOperands

/-- One operand before a list of operands. -/
def consOperand (o : Except AsmError Operand) (os : Except AsmError (List Operand)) :
    Except AsmError (List Operand) :=
  match o, os with
  | .ok x, .ok xs => .ok (x :: xs)
  | .error e, _ => .error e
  | _, .error e => .error e

/-- One or more operands, separated by commas (R66, R69). -/
def operandList : List Token → Except AsmError (List Operand)
  | [.word w] => consOperand (operandOfWord w) (.ok [])
  | .word w :: .comma :: ts => consOperand (operandOfWord w) (operandList ts)
  | [.openBracket, .word b, .closeBracket] => consOperand (memOperand b (.ok (.num 0))) (.ok [])
  | .openBracket :: .word b :: .closeBracket :: .comma :: ts =>
    consOperand (memOperand b (.ok (.num 0))) (operandList ts)
  | [.openBracket, .word b, .plus, .word v, .closeBracket] =>
    consOperand (memOperand b (valueOfWord v)) (.ok [])
  | .openBracket :: .word b :: .plus :: .word v :: .closeBracket :: .comma :: ts =>
    consOperand (memOperand b (valueOfWord v)) (operandList ts)
  | _ => .error .badOperands

/-- A mnemonic and its operands, or nothing (R66). -/
def instrOfTokens : List Token → Except AsmError (Option AsmInstr)
  | [] => .ok none
  | .word w :: ts =>
    match Mnemonic.ofText w with
    | none => .error (.unknownMnemonic w)
    | some m =>
      match ts with
      | [] => .ok (some ⟨m, []⟩)
      | t :: ts => (operandList (t :: ts)).map (fun os => some ⟨m, os⟩)
  | _ => .error .badLine

/-- A line: `LABEL:  OPCODE  OPERANDS    ; Comment`, each part optional (R66). -/
def parseLine (text : Text) : Except AsmError AsmLine :=
  match tokens [] text with
  | .error e => .error e
  | .ok (.word l :: .colon :: ts) =>
    if isLabelName l then (instrOfTokens ts).map (fun i => ⟨some l, i⟩) else .error .badLine
  | .ok ts => (instrOfTokens ts).map (fun i => ⟨none, i⟩)

/-! ### Assembling one instruction (R58, R69, R72) -/

/-- The labels of a program with their addresses (R68). -/
abbrev Labels := List (Text × Nat)

/-- The number a value stands for (R68, R69). -/
def AsmValue.resolve (labels : Labels) : AsmValue → Except AsmError Nat
  | .num n => .ok n
  | .label name =>
    match labels.lookup name with
    | some a => .ok a
    | none => .error (.unknownLabel name)

/-- A value as a field of `k` bits: outside `0 .. 2^k - 1` it is an assembly error (R72). -/
def AsmValue.field (labels : Labels) (k : Nat) (v : AsmValue) : Except AsmError (BitVec k) :=
  match v.resolve labels with
  | .error e => .error e
  | .ok n => if n < 2 ^ k then .ok (BitVec.ofNat k n) else .error (.outOfRange n)

/-- The instruction a mnemonic and its operands are (R58); brackets choose between the two opcodes of
LOAD and of STORE (R69), and every value is checked against its field (R72). -/
def AsmInstr.toInstr (labels : Labels) (a : AsmInstr) : Except AsmError Instr :=
  match a.mnemonic, a.operands with
  | .mov, [.reg rd, .reg rs] => .ok (.mov rd rs)
  | .nop, [] => .ok .nop
  | .movi, [.reg rd, .value v] => (v.field labels 7).map (.movi rd)
  | .load, [.reg rd, .mem rs v] => (v.field labels 4).map (.loadInd rd rs)
  | .load, [.reg rd, .value v] => (v.field labels 16).map (.loadDir rd)
  | .store, [.reg rs, .mem rd v] => (v.field labels 4).map (.storeInd rs rd)
  | .store, [.reg rs, .value v] => (v.field labels 16).map (.storeDir rs)
  | .add, [.reg rd, .reg rs, .reg rt] => .ok (.add rd rs rt)
  | .addi, [.reg rd, .reg rs, .value v] => (v.field labels 4).map (.addi rd rs)
  | .sub, [.reg rd, .reg rs, .reg rt] => .ok (.sub rd rs rt)
  | .subi, [.reg rd, .reg rs, .value v] => (v.field labels 4).map (.subi rd rs)
  | .mul, [.reg rd, .reg rs, .reg rt] => .ok (.mul rd rs rt)
  | .div, [.reg rd, .reg rs, .reg rt] => .ok (.div rd rs rt)
  | .inc, [.reg rd] => .ok (.inc rd)
  | .dec, [.reg rd] => .ok (.dec rd)
  | .and, [.reg rd, .reg rs, .reg rt] => .ok (.and rd rs rt)
  | .andi, [.reg rd, .reg rs, .value v] => (v.field labels 4).map (.andi rd rs)
  | .or, [.reg rd, .reg rs, .reg rt] => .ok (.or rd rs rt)
  | .ori, [.reg rd, .reg rs, .value v] => (v.field labels 4).map (.ori rd rs)
  | .xor, [.reg rd, .reg rs, .reg rt] => .ok (.xor rd rs rt)
  | .not, [.reg rd, .reg rs] => .ok (.not rd rs)
  | .shl, [.reg rd, .reg rs, .reg rt] => .ok (.shl rd rs rt)
  | .shli, [.reg rd, .reg rs, .value v] => (v.field labels 4).map (.shli rd rs)
  | .shr, [.reg rd, .reg rs, .reg rt] => .ok (.shr rd rs rt)
  | .shri, [.reg rd, .reg rs, .value v] => (v.field labels 4).map (.shri rd rs)
  | .cmp, [.reg rs, .reg rt] => .ok (.cmp rs rt)
  | .cmpi, [.reg rs, .value v] => (v.field labels 4).map (.cmpi rs)
  | .jmp, [.value v] => (v.field labels 16).map .jmp
  | .jz, [.value v] => (v.field labels 16).map .jz
  | .jnz, [.value v] => (v.field labels 16).map .jnz
  | .jc, [.value v] => (v.field labels 16).map .jc
  | .jnc, [.value v] => (v.field labels 16).map .jnc
  | .jn, [.value v] => (v.field labels 16).map .jn
  | .call, [.value v] => (v.field labels 16).map .call
  | .ret, [] => .ok .ret
  | .push, [.reg rs] => .ok (.push rs)
  | .pop, [.reg rd] => .ok (.pop rd)
  | .halt, [] => .ok .halt
  | _, _ => .error .badOperands

/-- The bytes an instruction as written takes: 4 for a Direct-format instruction, else 2 (R72). The
operand forms alone decide, so that addresses are known before labels are. -/
def AsmInstr.size (a : AsmInstr) : Nat :=
  match a.mnemonic, a.operands with
  | .load, [_, .value _] => 4
  | .store, [_, .value _] => 4
  | .jmp, _ => 4
  | .jz, _ => 4
  | .jnz, _ => 4
  | .jc, _ => 4
  | .jnc, _ => 4
  | .jn, _ => 4
  | .call, _ => 4
  | _, _ => 2

/-! ### Assembling a program (R68, R72) -/

/-- The labels of the lines from address `a` on: each names the address of the instruction that follows
it (R66, R68), instructions following one another without gaps (R72). DESIGN CHOICE (log 22): a label
after which no instruction stands names the address just past the last instruction; the spec gives it no
value. -/
def collectLabels (a : Nat) (seen : Labels) : List AsmLine → Except AsmError Labels
  | [] => .ok seen
  | l :: ls =>
    let after := a + (match l.instr with | some i => i.size | none => 0)
    match l.label with
    | none => collectLabels after seen ls
    | some name =>
      if (seen.lookup name).isSome then .error (.duplicateLabel name)
      else collectLabels after ((name, a) :: seen) ls

/-- The words of the lines, labels resolved (R68). -/
def emitLines (labels : Labels) : List AsmLine → Except AsmError (List Word)
  | [] => .ok []
  | l :: ls =>
    match l.instr with
    | none => emitLines labels ls
    | some a =>
      match a.toInstr labels, emitLines labels ls with
      | .ok i, .ok ws => .ok (encode i ++ ws)
      | .error e, _ => .error e
      | _, .error e => .error e

/-- Every line parsed, or the first error. -/
def parseLines : List Text → Except AsmError (List AsmLine)
  | [] => .ok []
  | t :: ts =>
    match parseLine t, parseLines ts with
    | .ok l, .ok ls => .ok (l :: ls)
    | .error e, _ => .error e
    | _, .error e => .error e

/-- The image of a program, its first instruction at 0x0000 (R72). -/
def assembleLines (lines : List AsmLine) : Except AsmError (List Word) :=
  match collectLabels Config.pcReset.toNat [] lines with
  | .error e => .error e
  | .ok labels => emitLines labels lines

/-- A text cut at its line ends, `acc` the line being read, last character first. -/
def splitLines (acc : Text) : Text → List Text
  | [] => [acc.reverse]
  | c :: cs => if c = '\n' then acc.reverse :: splitLines [] cs else splitLines (c :: acc) cs

/-- The image of a source text (R66 to R72). -/
def assemble (source : String) : Except AsmError (List Word) :=
  match parseLines (splitLines [] source.toList) with
  | .error e => .error e
  | .ok lines => assembleLines lines

/-! ### The way back (R69, R75) -/

/-- An instruction as written (R58, R69). The word 0x0000 decodes to `nop` and so prints as NOP (R75). -/
def toAsm : Instr → AsmInstr
  | .mov rd rs => ⟨.mov, [.reg rd, .reg rs]⟩
  | .nop => ⟨.nop, []⟩
  | .movi rd imm => ⟨.movi, [.reg rd, .value (.num imm.toNat)]⟩
  | .loadInd rd rs off => ⟨.load, [.reg rd, .mem rs (.num off.toNat)]⟩
  | .loadDir rd addr => ⟨.load, [.reg rd, .value (.num addr.toNat)]⟩
  | .storeInd rs rd off => ⟨.store, [.reg rs, .mem rd (.num off.toNat)]⟩
  | .storeDir rs addr => ⟨.store, [.reg rs, .value (.num addr.toNat)]⟩
  | .add rd rs rt => ⟨.add, [.reg rd, .reg rs, .reg rt]⟩
  | .addi rd rs imm => ⟨.addi, [.reg rd, .reg rs, .value (.num imm.toNat)]⟩
  | .sub rd rs rt => ⟨.sub, [.reg rd, .reg rs, .reg rt]⟩
  | .subi rd rs imm => ⟨.subi, [.reg rd, .reg rs, .value (.num imm.toNat)]⟩
  | .mul rd rs rt => ⟨.mul, [.reg rd, .reg rs, .reg rt]⟩
  | .div rd rs rt => ⟨.div, [.reg rd, .reg rs, .reg rt]⟩
  | .inc rd => ⟨.inc, [.reg rd]⟩
  | .dec rd => ⟨.dec, [.reg rd]⟩
  | .and rd rs rt => ⟨.and, [.reg rd, .reg rs, .reg rt]⟩
  | .andi rd rs imm => ⟨.andi, [.reg rd, .reg rs, .value (.num imm.toNat)]⟩
  | .or rd rs rt => ⟨.or, [.reg rd, .reg rs, .reg rt]⟩
  | .ori rd rs imm => ⟨.ori, [.reg rd, .reg rs, .value (.num imm.toNat)]⟩
  | .xor rd rs rt => ⟨.xor, [.reg rd, .reg rs, .reg rt]⟩
  | .not rd rs => ⟨.not, [.reg rd, .reg rs]⟩
  | .shl rd rs rt => ⟨.shl, [.reg rd, .reg rs, .reg rt]⟩
  | .shli rd rs imm => ⟨.shli, [.reg rd, .reg rs, .value (.num imm.toNat)]⟩
  | .shr rd rs rt => ⟨.shr, [.reg rd, .reg rs, .reg rt]⟩
  | .shri rd rs imm => ⟨.shri, [.reg rd, .reg rs, .value (.num imm.toNat)]⟩
  | .cmp rs rt => ⟨.cmp, [.reg rs, .reg rt]⟩
  | .cmpi rs imm => ⟨.cmpi, [.reg rs, .value (.num imm.toNat)]⟩
  | .jmp addr => ⟨.jmp, [.value (.num addr.toNat)]⟩
  | .jz addr => ⟨.jz, [.value (.num addr.toNat)]⟩
  | .jnz addr => ⟨.jnz, [.value (.num addr.toNat)]⟩
  | .jc addr => ⟨.jc, [.value (.num addr.toNat)]⟩
  | .jnc addr => ⟨.jnc, [.value (.num addr.toNat)]⟩
  | .jn addr => ⟨.jn, [.value (.num addr.toNat)]⟩
  | .call addr => ⟨.call, [.value (.num addr.toNat)]⟩
  | .ret => ⟨.ret, []⟩
  | .push rs => ⟨.push, [.reg rs]⟩
  | .pop rd => ⟨.pop, [.reg rd]⟩
  | .halt => ⟨.halt, []⟩

end Sys2Proof.Machine
end

