-- ==== Sys2Proof/Safety.lean ====
section
/-! DEFINITION. What counts as a good run, what the host observes, the machine's invariant, and the words the
statements are written in: what a step keeps. -/

namespace Sys2Proof.Machine

/-! ### Runs (R21 to R23, R183) -/

/-- The machine has a step: neither halted nor faulted (R61). -/
def State.Running (s : State) : Prop := s.fault = none ∧ s.halted = false

/-- A run ended normally here: HALT has executed and nothing faulted (R183). -/
def State.NormalEnd (s : State) : Prop := s.halted = true ∧ s.fault = none

/-- A run has gone wrong here (R162, R183). -/
def State.GoneWrong (s : State) : Prop := s.fault ≠ none

/-- The characters of the console output stream: `value[7:0]` of each write to Console Output, in order
(R23, R39). -/
def State.consoleOutput (s : State) : List Byte :=
  (s.io.filter (fun e => e.kind == .write && deviceAt e.addr == .consoleOutput)).map
    (fun e => Word.lo e.value)

/-! ### The invariant -/

/-- RAM is in its canonical form and holds nothing at a device address (R38); `sp` is even (R27); every
recorded device access is at a device address (R23); a halted machine has not faulted (R183). -/
structure State.Inv (s : State) : Prop where
  memCanonical : s.mem.wf
  spEven : isOdd s.sp = false
  ioAtDevices : ∀ e ∈ s.io, isIO e.addr = true
  haltedClean : s.halted = true → s.fault = none

/-! ### What a step keeps -/

/-- Every general register is as before. -/
def RegsKept (s t : State) : Prop := ∀ r, t.reg r = s.reg r

/-- Every general register but `rd` is as before. -/
def RegsKeptBut (rd : Reg) (s t : State) : Prop := ∀ r, r ≠ rd → t.reg r = s.reg r

/-- Every byte of memory reads as before. -/
def MemKept (s t : State) : Prop := ∀ a : Nat, t.byte a = s.byte a

/-- Every byte of memory but the two of the word at `ea` reads as before. -/
def MemKeptBut (ea : Word) (s t : State) : Prop :=
  ∀ a : Nat, a ≠ ea.toNat → a ≠ (ea + 1).toNat → t.byte a = s.byte a

/-- The run state and the fault record are as before (R21, R22). -/
def RunKept (s t : State) : Prop := t.halted = s.halted ∧ t.fault = s.fault

/-- No device was accessed and no free value drawn (R23; log 6). -/
def IoKept (s t : State) : Prop := t.io = s.io ∧ t.draws = s.draws

/-- Everything but the general registers, the flags and `pc` is as before. -/
structure OnlyAlu (s t : State) : Prop where
  sp : t.sp = s.sp
  mem : MemKept s t
  run : RunKept s t
  io : IoKept s t

/-- An even RAM address: the data accesses that neither fault nor reach a device (R35, R36). -/
def IsRamEven (a : Word) : Prop := isIO a = false ∧ isOdd a = false

/-- An odd RAM address: the accesses that are misaligned (R37). -/
def IsRamOdd (a : Word) : Prop := isIO a = false ∧ isOdd a = true

/-- The signed reading of the exact result lies outside `-32768 .. 32767` (R17). -/
def SignedOverflow (x : Int) : Prop := x < -32768 ∨ 32767 < x

/-- The flags of a sum (R17), said of the operands: Z the result is zero, C the unsigned sum exceeds
65535, N the result's bit 15, O the signed sum overflows. -/
structure SumFlags (a b : Word) (f : Flags) : Prop where
  z : f.z = true ↔ (a.toNat + b.toNat) % 65536 = 0
  c : f.c = true ↔ 65536 ≤ a.toNat + b.toNat
  n : f.n = (a + b).getLsbD 15
  o : f.o = true ↔ SignedOverflow (a.toInt + b.toInt)

/-- The flags of a difference (R17), said of the operands: Z they are equal, C a borrow, N the result's
bit 15, O the signed difference overflows. -/
structure DiffFlags (a b : Word) (f : Flags) : Prop where
  z : f.z = true ↔ a = b
  c : f.c = true ↔ a.toNat < b.toNat
  n : f.n = (a - b).getLsbD 15
  o : f.o = true ↔ SignedOverflow (a.toInt - b.toInt)

/-- The flags of a class-ZN result under `CO_POLICY = unchanged` (R17, R18): Z and N from the result, C
and O as before. -/
structure ResultFlags (r : Word) (f g : Flags) : Prop where
  z : g.z = true ↔ r = 0
  n : g.n = r.getLsbD 15
  c : g.c = f.c
  o : g.o = f.o

/-- The outcome of a one-word instruction of class AS with destination `rd` and result `r`, its flags
said by `P`. -/
def CompletesAS (rd : Reg) (r : Word) (P : Flags → Prop) (i : Instr) (s : State) : Prop :=
  ∃ t, exec i s = .next t ∧ t.reg rd = r ∧ RegsKeptBut rd s t ∧ P t.flags ∧ t.pc = s.pc + 2
    ∧ OnlyAlu s t

/-- The outcome of a one-word instruction of class ZN with destination `rd` and result `r`. -/
def CompletesZN (rd : Reg) (r : Word) (i : Instr) (s : State) : Prop :=
  ∃ t, exec i s = .next t ∧ t.reg rd = r ∧ RegsKeptBut rd s t ∧ ResultFlags r s.flags t.flags
    ∧ t.pc = s.pc + 2 ∧ OnlyAlu s t

/-- The outcome of a jump to `dest`: nothing but `pc` changes. -/
def JumpsTo (dest : Word) (i : Instr) (s : State) : Prop :=
  ∃ t, exec i s = .next t ∧ t.pc = dest ∧ RegsKept s t ∧ t.flags = s.flags ∧ OnlyAlu s t

/-- The outcome of an instruction that raises `f` (R162): nothing but the fault record changes. -/
def Raises (f : Fault) (i : Instr) (s : State) : Prop :=
  exec i s = .next { s with fault := some f }

/-- The bytes of `v` stand at `ea`, low byte first, and every other byte reads as before (R33, R36). -/
structure StoredWord (ea v : Word) (s t : State) : Prop where
  low : t.byte ea.toNat = v.extractLsb' 0 8
  high : t.byte (ea + 1).toNat = v.extractLsb' 8 8
  rest : MemKeptBut ea s t

/-- `v` is `mem[ea] + 256 * mem[ea+1]` (R35). -/
def IsWordAt (s : State) (ea v : Word) : Prop :=
  v.toNat = (s.byte ea.toNat).toNat + 256 * (s.byte (ea + 1).toNat).toNat

/-- What a step that reads the word `v` at `ea` does to memory and the trace: RAM gives the word that
stands there and nothing is recorded (R35); a device gives whatever it gives, which is recorded last
in the trace (R38, R39). Memory never changes. -/
structure ReadsWord (ea v : Word) (s t : State) : Prop where
  ram : IsRamEven ea → IsWordAt s ea v ∧ IoKept s t
  device : isIO ea = true → t.io = s.io ++ [⟨.read, ea, v⟩]
  mem : MemKept s t
  run : RunKept s t

/-- What a step that writes the word `v` at `ea` does to memory and the trace: RAM takes its two bytes and
nothing is recorded (R36); a device access is recorded last in the trace and changes no RAM byte
(R38). -/
structure WritesWord (ea v : Word) (s t : State) : Prop where
  ram : IsRamEven ea → StoredWord ea v s t ∧ t.io = s.io
  device : isIO ea = true → MemKept s t ∧ t.io = s.io ++ [⟨.write, ea, v⟩]
  draws : t.draws = s.draws
  run : RunKept s t

/-- A load into `rd` from `ea` by an instruction of `n` bytes (R82, R83): it completes at every even RAM
address and every device address, and raises MisalignedAccess at every odd RAM address. -/
def Loads (ea : Word) (rd : Reg) (n : Word) (i : Instr) (s : State) : Prop :=
  (IsRamEven ea ∨ isIO ea = true → ∃ t, exec i s = .next t ∧ ReadsWord ea (t.reg rd) s t
    ∧ RegsKeptBut rd s t ∧ t.flags = s.flags ∧ t.sp = s.sp ∧ t.pc = s.pc + n)
  ∧ (IsRamOdd ea → Raises (.misalignedAccess ea .read s.pc) i s)

/-- A store of `v` to `ea` by an instruction of `n` bytes (R84, R85). -/
def Stores (ea v n : Word) (i : Instr) (s : State) : Prop :=
  (IsRamEven ea ∨ isIO ea = true → ∃ t, exec i s = .next t ∧ WritesWord ea v s t ∧ RegsKept s t
    ∧ t.flags = s.flags ∧ t.sp = s.sp ∧ t.pc = s.pc + n)
  ∧ (IsRamOdd ea → Raises (.misalignedAccess ea .write s.pc) i s)

/-- A push of `v` after which execution goes on at `dest` (R15, R136, R145): the word goes to `sp - 2`,
which `sp` then holds. -/
def Pushes (v dest : Word) (i : Instr) (s : State) : Prop :=
  (IsRamEven s.pushAddr ∨ isIO s.pushAddr = true → ∃ t, exec i s = .next t
    ∧ WritesWord s.pushAddr v s t ∧ t.sp = s.pushAddr ∧ RegsKept s t ∧ t.flags = s.flags
    ∧ t.pc = dest)
  ∧ (IsRamOdd s.pushAddr → Raises (.misalignedAccess s.pushAddr .write s.pc) i s)

/-- Two states that agree in everything but the flag O (R20). -/
def AgreeButO (s t : State) : Prop :=
  t = { s with flags := { s.flags with o := t.flags.o } }

/-! ### What each instruction may write (R10 to R20) -/

/-- The general register an instruction writes, if it writes one (40_data_movement.md to
47_system.md). -/
def destReg : Instr → Option Reg
  | .mov rd _ => some rd
  | .movi rd _ => some rd
  | .loadInd rd _ _ => some rd
  | .loadDir rd _ => some rd
  | .add rd _ _ => some rd
  | .addi rd _ _ => some rd
  | .sub rd _ _ => some rd
  | .subi rd _ _ => some rd
  | .mul rd _ _ => some rd
  | .div rd _ _ => some rd
  | .inc rd => some rd
  | .dec rd => some rd
  | .and rd _ _ => some rd
  | .andi rd _ _ => some rd
  | .or rd _ _ => some rd
  | .ori rd _ _ => some rd
  | .xor rd _ _ => some rd
  | .not rd _ => some rd
  | .shl rd _ _ => some rd
  | .shli rd _ _ => some rd
  | .shr rd _ _ => some rd
  | .shri rd _ _ => some rd
  | .pop rd => some rd
  | .nop | .storeInd _ _ _ | .storeDir _ _ | .cmp _ _ | .cmpi _ _ | .jmp _ | .jz _ | .jnz _ | .jc _
  | .jnc _ | .jn _ | .call _ | .ret | .push _ | .halt => none

/-- The address an instruction stores a word to, if it stores one (R84, R85, R136, R145). -/
def storeAddr (i : Instr) (s : State) : Option Word :=
  match i with
  | .storeInd _ rd off => some (s.effAddr rd off)
  | .storeDir _ addr => some (directAddr addr)
  | .call _ => some s.pushAddr
  | .push _ => some s.pushAddr
  | .mov _ _ | .nop | .movi _ _ | .loadInd _ _ _ | .loadDir _ _ | .add _ _ _ | .addi _ _ _
  | .sub _ _ _ | .subi _ _ _ | .mul _ _ _ | .div _ _ _ | .inc _ | .dec _ | .and _ _ _ | .andi _ _ _
  | .or _ _ _ | .ori _ _ _ | .xor _ _ _ | .not _ _ | .shl _ _ _ | .shli _ _ _ | .shr _ _ _
  | .shri _ _ _ | .cmp _ _ | .cmpi _ _ | .jmp _ | .jz _ | .jnz _ | .jc _ | .jnc _ | .jn _ | .ret
  | .pop _ | .halt => none

/-- The address an instruction loads a word from, if it loads one (R82, R83, R137, R146). -/
def loadAddr (i : Instr) (s : State) : Option Word :=
  match i with
  | .loadInd _ rs off => some (s.effAddr rs off)
  | .loadDir _ addr => some (directAddr addr)
  | .ret => some s.sp
  | .pop _ => some s.sp
  | .mov _ _ | .nop | .movi _ _ | .storeInd _ _ _ | .storeDir _ _ | .add _ _ _ | .addi _ _ _
  | .sub _ _ _ | .subi _ _ _ | .mul _ _ _ | .div _ _ _ | .inc _ | .dec _ | .and _ _ _ | .andi _ _ _
  | .or _ _ _ | .ori _ _ _ | .xor _ _ _ | .not _ _ | .shl _ _ _ | .shli _ _ _ | .shr _ _ _
  | .shri _ _ _ | .cmp _ _ | .cmpi _ _ | .jmp _ | .jz _ | .jnz _ | .jc _ | .jnc _ | .jn _ | .call _
  | .push _ | .halt => none

/-- The instruction that the bytes at `pc` decode to (R60, R61). -/
def DecodesAtPc (s : State) (i : Instr) : Prop :=
  ∃ rest, decodeBytes [s.byte s.pc.toNat, s.byte (s.pc + 1).toNat, s.byte (s.pc + 2).toNat,
    s.byte (s.pc + 3).toNat] = .ok (i, rest)

/-- The flag classes of R18. -/
inductive FlagClass where
  /-- Add or subtract: all four flags. -/
  | as
  /-- Result only: Z and N; C and O per CO_POLICY. -/
  | zn
  /-- No flag. -/
  | none
  deriving DecidableEq, Repr

/-- The flag class of each instruction (R18). -/
def flagClass : Instr → FlagClass
  | .add _ _ _ | .addi _ _ _ | .inc _ | .sub _ _ _ | .subi _ _ _ | .dec _ | .cmp _ _ | .cmpi _ _ => .as
  | .mul _ _ _ | .div _ _ _ | .and _ _ _ | .andi _ _ _ | .or _ _ _ | .ori _ _ _ | .xor _ _ _
  | .not _ _ | .shl _ _ _ | .shli _ _ _ | .shr _ _ _ | .shri _ _ _ => .zn
  | .mov _ _ | .movi _ _ | .loadInd _ _ _ | .loadDir _ _ | .storeInd _ _ _ | .storeDir _ _ | .jmp _
  | .jz _ | .jnz _ | .jc _ | .jnc _ | .jn _ | .call _ | .ret | .push _ | .pop _ | .nop | .halt => .none

/-- The instructions that may send `pc` elsewhere than to the next instruction (R12). -/
def isControl : Instr → Bool
  | .jmp _ | .jz _ | .jnz _ | .jc _ | .jnc _ | .jn _ | .call _ | .ret => true
  | .mov _ _ | .nop | .movi _ _ | .loadInd _ _ _ | .loadDir _ _ | .storeInd _ _ _ | .storeDir _ _
  | .add _ _ _ | .addi _ _ _ | .sub _ _ _ | .subi _ _ _ | .mul _ _ _ | .div _ _ _ | .inc _ | .dec _
  | .and _ _ _ | .andi _ _ _ | .or _ _ _ | .ori _ _ _ | .xor _ _ _ | .not _ _ | .shl _ _ _
  | .shli _ _ _ | .shr _ _ _ | .shri _ _ _ | .cmp _ _ | .cmpi _ _ | .push _ | .pop _ | .halt => false

/-- The instructions that read and write `sp` (R14). -/
def usesStack : Instr → Bool
  | .push _ | .pop _ | .call _ | .ret => true
  | .mov _ _ | .nop | .movi _ _ | .loadInd _ _ _ | .loadDir _ _ | .storeInd _ _ _ | .storeDir _ _
  | .add _ _ _ | .addi _ _ _ | .sub _ _ _ | .subi _ _ _ | .mul _ _ _ | .div _ _ _ | .inc _ | .dec _
  | .and _ _ _ | .andi _ _ _ | .or _ _ _ | .ori _ _ _ | .xor _ _ _ | .not _ _ | .shl _ _ _
  | .shli _ _ _ | .shr _ _ _ | .shri _ _ _ | .cmp _ _ | .cmpi _ _ | .jmp _ | .jz _ | .jnz _ | .jc _
  | .jnc _ | .jn _ | .halt => false

/-! ### Assembling within a range (R72) -/

/-- A form whose operands are `os` assembles to `i` when its value `n` is at most `max`, and is the error
that names `n` when it is not (R72). -/
def AssemblesUpTo (max n : Nat) (labels : Labels) (m : Mnemonic) (os : List Operand) (i : Instr) : Prop :=
  (⟨m, os⟩ : AsmInstr).toInstr labels = if n ≤ max then .ok i else .error (.outOfRange n)

/-! ### Which first words are no instruction (R54, R55, R58, R59) -/

/-- One of the 27 unassigned opcodes: 0x06, 0x07, 0x16, 0x17, 0x1E, 0x1F and 0x2A..0x3E (R58). -/
def unassignedOpcode (op : BitVec 6) : Bool :=
  op ∈ [0x06, 0x07, 0x16, 0x17, 0x1E, 0x1F] || (decide (0x2A ≤ op.toNat) && decide (op.toNat ≤ 0x3E))

/-- The bits outside the opcode that must be zero in a word with this opcode, by its layout class (R54,
R55). -/
def mustBeZero (op : BitVec 6) : Word :=
  if op ∈ [0x00, 0x15] then 0x000F                                             -- R2
  else if op ∈ [0x08, 0x0A, 0x0C, 0x0D, 0x10, 0x12, 0x14, 0x18, 0x1A] then 0x0008  -- R3
  else if op ∈ [0x03, 0x0E, 0x0F, 0x29] then 0x007F                            -- DL, R1D
  else if op ∈ [0x05, 0x28] then 0x038F                                        -- DS, R1S
  else if op = 0x1C then 0x0388                                                -- RC
  else if op = 0x1D then 0x0380                                                -- CI
  else if op ∈ [0x20, 0x21, 0x22, 0x23, 0x24, 0x25, 0x26, 0x27, 0x3F] then 0x03FF  -- DJ, IMP
  else 0x0000                                                                  -- RI, I7, MI

/-- A first word that decodes to *illegal* (R59). -/
def IllegalWord (w : Word) : Prop :=
  unassignedOpcode (opField w) = true ∨ w &&& mustBeZero (opField w) ≠ 0

end Sys2Proof.Machine
end

