-- ==== Sys2Proof/Certificates/Slice0/Obligations.lean ====
section
/-! DEFINITION. The statements for the provers. The words they use (`Loads`, `CompletesAS`, `RegsKeptBut`, …) are
defined in Sys2Proof/Safety.lean. -/

open Sys2Proof Sys2Proof.Machine

/-! ### Encoding and decoding -/

/-- Decode and encode agree: the bytes of a well-formed instruction decode to it, whatever follows them
(30_encoding.md R62, R64). Its one word left out of `wellFormed`, `MOV R0, R0`, decodes to `NOP`
(log 10). -/
def Obligations.DecodingAnEncodedInstructionGivesItBack : Prop :=
  (∀ (i : Instr) (rest : List Byte), i.wellFormed = true →
    decodeBytes (encodeBytes i ++ rest) = .ok (i, rest))
  ∧ ∀ rest : List Byte, decodeBytes (encodeBytes (.mov .r0 .r0) ++ rest) = .ok (.nop, rest)

/-- The other direction: bytes that decode are the encoding of what they decode to, so that no two words
decode alike ("Decoding is injective on legal words", R62). -/
def Obligations.DecodedBytesAreTheEncodingOfTheInstruction : Prop :=
  ∀ (bytes rest : List Byte) (i : Instr), decodeBytes bytes = .ok (i, rest) →
    i.wellFormed = true ∧ bytes = encodeBytes i ++ rest

/-- Thirteen words the spec writes out, at least one for each family: from 95_test_vectors.md parts A, B1
and B6 but for 0x4D2A (42_logical.md, the example of R108) and 0x60A3 (43_shift.md, that of R115). -/
def Obligations.WordsOfTheSpecDecodeAsItSays : Prop :=
  decodeTableWord 16 0x00A0 = some (.mov .r1 .r2)
  ∧ decodeTableWord 16 0x0000 = some .nop
  ∧ decodeTableWord 16 0x0853 = some (.loadInd .r0 .r5 3)
  ∧ decodeTableWord 32 0x10000C80 = some (.loadDir .r1 0x1000)
  ∧ decodeTableWord 16 0x20A3 = some (.add .r1 .r2 .r3)
  ∧ decodeTableWord 16 0x4D2A = some (.ori .r2 .r2 10)
  ∧ decodeTableWord 16 0x60A3 = some (.shl .r1 .r2 .r3)
  ∧ decodeTableWord 16 0x740A = some (.cmpi .r0 10)
  ∧ decodeTableWord 32 0x01008000 = some (.jmp 0x0100)
  ∧ decodeTableWord 16 0xA030 = some (.push .r3)
  ∧ decodeTableWord 16 0xFC00 = some .halt
  ∧ decodeTableWord 16 0x2008 = none
  ∧ decodeTableWord 16 0x1800 = none

/-- A word is illegal exactly when its opcode is unassigned or one of its must-be-zero bits is set (R55,
R59); every other word decodes. -/
def Obligations.WordIsIllegalExactlyWhenUnassignedOrAReservedBitIsSet : Prop :=
  ∀ w : Word, (IllegalWord w → decodeFirst w = .error (.illegal w))
    ∧ (¬ IllegalWord w → ∃ f, decodeFirst w = .ok f)

/-- The opcode of the first word alone decides the length: 4 bytes for 0x03, 0x05 and 0x20..0x26, else 2
(R60). -/
def Obligations.OpcodeAloneDecidesTheLength : Prop :=
  ∀ (lo hi : Byte) (tail rest : List Byte) (i : Instr), decodeBytes (lo :: hi :: tail) = .ok (i, rest) →
    tail.length + 2 = rest.length
      + (if opField (Word.ofBytes lo hi) ∈ [0x03, 0x05, 0x20, 0x21, 0x22, 0x23, 0x24, 0x25, 0x26]
          then 4 else 2)

/-! ### The step -/

/-- A running machine whose bytes at `pc` decode to `i` runs `i` (R61): `exec` takes the state before the
step and moves `pc` past the instruction itself, so the step adds nothing around it. -/
def Obligations.StepRunsTheDecodedInstruction : Prop :=
  ∀ (s : State) (i : Instr) (rest : List Byte), s.Running → IsRamEven s.pc →
    (i.words = 2 → isIO (s.pc + 2) = false) →
    decodeBytes [s.byte s.pc.toNat, s.byte (s.pc + 1).toNat, s.byte (s.pc + 2).toNat,
      s.byte (s.pc + 3).toNat] = .ok (i, rest) →
    step s = exec i s

/-- The faults of fetch and decode in the order they are found (R163): device address, odd address,
illegal word, address word at a device address; an address word never lies at an odd address. -/
def Obligations.FetchFaultsAreFoundInOrder : Prop :=
  ∀ s : State, s.Running →
    (isIO s.pc = true → step s = .next { s with fault := some (.fetchFromIO s.pc s.pc) })
    ∧ (IsRamOdd s.pc → step s = .next { s with fault := some (.misalignedAccess s.pc .fetch s.pc) })
    ∧ (IsRamEven s.pc → IllegalWord (s.ramWord s.pc) →
        step s = .next { s with fault := some (.illegalInstruction (s.ramWord s.pc) s.pc) })
    ∧ (IsRamEven s.pc → isOdd (s.pc + 2) = false)
    ∧ ∀ d, IsRamEven s.pc → decodeFirst (s.ramWord s.pc) = .ok (.direct d) → isIO (s.pc + 2) = true →
        step s = .next { s with fault := some (.fetchFromIO (s.pc + 2) s.pc) }

/-- Faults are precise and terminal (R162): a step that raises one changes nothing but the fault record,
and the machine it leaves has no step and has not ended normally. -/
def Obligations.FaultsArePreciseAndTerminal : Prop :=
  ∀ (s t : State) (f : Fault), step s = .next t → t.fault = some f →
    t = { s with fault := some f } ∧ ¬ t.NormalEnd ∧ ∀ u, step t ≠ .next u

/-- Only the four situations of R161 fault, with the information it lists: the illegal word at `pc`; the
odd RAM address, which is `pc` for a fetch and for a data access the one that the instruction at `pc`
loads from or stores to; the device address, which is `pc` or that of the address word of a Direct-format
instruction; a DIV whose divisor is 0. Which access is of which kind is log 11. -/
def Obligations.OnlyTheFourSituationsFault : Prop :=
  ∀ (s t : State) (f : Fault), step s = .next t → t.fault = some f →
    match f with
    | .illegalInstruction w a0 => a0 = s.pc ∧ w = s.ramWord s.pc ∧ IllegalWord w
    | .misalignedAccess a .fetch a0 => a0 = s.pc ∧ IsRamOdd a ∧ a = s.pc
    | .misalignedAccess a .read a0 =>
      a0 = s.pc ∧ IsRamOdd a ∧ ∃ i, DecodesAtPc s i ∧ loadAddr i s = some a
    | .misalignedAccess a .write a0 =>
      a0 = s.pc ∧ IsRamOdd a ∧ ∃ i, DecodesAtPc s i ∧ storeAddr i s = some a
    | .fetchFromIO a a0 => a0 = s.pc ∧ isIO a = true
        ∧ (a = s.pc ∨ a = s.pc + 2 ∧ ∃ d, decodeFirst (s.ramWord s.pc) = .ok (.direct d))
    | .divideByZero a0 => a0 = s.pc ∧ ∃ rd rs rt, DecodesAtPc s (.div rd rs rt) ∧ s.reg rt = 0

/-- A faulted machine has no step: it stops with the recorded fault; nor has a halted one (R21, R22). Which
outcome of the interface stands for "no step" is the model's choice (log 8, log 9). -/
def Obligations.FaultedOrHaltedMachineHasNoStep : Prop :=
  (∀ (s : State) (f : Fault), s.fault = some f → step s = .fault f)
  ∧ ∀ s : State, s.fault = none → s.halted = true → step s = .refused .halted

/-- "every state that is neither halted nor faulted has exactly one successor"
(93_implementation_defined.md section 1). -/
def Obligations.RunningMachineAlwaysSteps : Prop :=
  ∀ s : State, s.Running → ∃ t, step s = .next t

/-! ### Invariants and whole-machine rules -/

/-- Every step keeps the invariant: memory canonical with nothing at a device address, `sp` even, every
traced access at a device address, a halted machine not faulted. -/
def Obligations.StepKeepsTheInvariant : Prop :=
  ∀ s t : State, s.Inv → step s = .next t → t.Inv

/-- The reset state is one the spec allows, and every reset state the spec allows meets the invariant
(R26, R180). -/
def Obligations.EveryResetStateMeetsTheInvariant : Prop :=
  State.reset.IsReset ∧ ∀ s : State, s.IsReset → s.Inv

/-- The values the spec decides for reset (R26, R180): `pc` and `sp` 0x0000, not halted, no fault, an
empty trace. The registers' and flags' values there are the model's choice (log 1) and not stated. -/
def Obligations.ResetLeavesTheDecidedValues : Prop :=
  State.reset.pc = 0x0000 ∧ State.reset.sp = 0x0000 ∧ State.reset.halted = false
    ∧ State.reset.fault = none ∧ State.reset.io = []

/-- The overflow flag "is written but can never influence execution" (R20, which the spec marks as
derived): two states that differ in O alone step alike, and still differ in O at most. -/
def Obligations.OverflowFlagNeverInfluencesExecution : Prop :=
  ∀ s s' : State, AgreeButO s s' →
    (∀ t, step s = .next t → ∃ t', step s' = .next t' ∧ AgreeButO t t')
    ∧ (∀ f, step s = .fault f → step s' = .fault f)
    ∧ (∀ r, step s = .refused r → step s' = .refused r)

/-- The trace is only appended to, by at most one device access a step (R23, R43). -/
def Obligations.TraceGrowsByAtMostOneDeviceAccess : Prop :=
  ∀ s t : State, step s = .next t →
    t.io = s.io ∨ ∃ e, t.io = s.io ++ [e] ∧ isIO e.addr = true

/-- An instruction changes no byte of memory but the two of the word it stores, whose address is
`storeAddr`; one that stores nothing changes none. -/
def Obligations.OnlyTheStoredWordChangesMemory : Prop :=
  ∀ (i : Instr) (s t : State), exec i s = .next t →
    (∀ a, storeAddr i s = some a → MemKeptBut a s t) ∧ (storeAddr i s = none → MemKept s t)

/-- An instruction changes no general register but its destination. -/
def Obligations.OnlyTheDestinationRegisterChanges : Prop :=
  ∀ (i : Instr) (s t : State), exec i s = .next t → ∀ r, destReg i ≠ some r → t.reg r = s.reg r

/-- An instruction of class "none" leaves the flags as they are, one of class ZN leaves C and O as they
are (R18, under the spec's CO_POLICY; log 5). -/
def Obligations.FlagsAreWrittenByTheirClassesOnly : Prop :=
  ∀ (i : Instr) (s t : State), exec i s = .next t →
    (flagClass i = .none → t.flags = s.flags)
    ∧ (flagClass i = .zn → t.flags.c = s.flags.c ∧ t.flags.o = s.flags.o)

/-- "An instruction that is not a taken jump, `CALL` or `RET` leaves `pc` at that value", the address of
the instruction that follows it in memory (R12); one that faults leaves `pc` where it was (R162). -/
def Obligations.NonControlInstructionsFallThrough : Prop :=
  ∀ (i : Instr) (s t : State), isControl i = false → s.fault = none → exec i s = .next t →
    t.pc = (if t.fault = none then s.pc + BitVec.ofNat 16 (2 * i.words) else s.pc)

/-- `sp` is read and written only by PUSH, POP, CALL and RET (R14): no other instruction writes it, and
none but these behaves otherwise for another `sp`. -/
def Obligations.OnlyStackInstructionsUseSp : Prop :=
  ∀ (i : Instr) (s t : State) (v : Word), usesStack i = false → exec i s = .next t →
    t.sp = s.sp ∧ exec i (s.setSp v) = .next (t.setSp v)

/-- Only HALT halts, and nothing clears `halted` (R21). -/
def Obligations.OnlyHaltHalts : Prop :=
  ∀ (i : Instr) (s t : State), exec i s = .next t → t.halted = (s.halted || decide (i = .halt))

/-! ### Memory, devices, load -/

/-- A word stored in RAM is what the next read and the next instruction fetch there return (R43, R45). -/
def Obligations.StoredWordIsReadBackAndFetched : Prop :=
  ∀ (s : State) (rs : Reg) (addr : Word), IsRamEven addr →
    ∃ t, exec (.storeDir rs addr) s = .next t
      ∧ t.memRead Config.misalignedPolicy addr = .ok (s.reg rs, t)
      ∧ t.fetchWord Config.misalignedPolicy addr = .ok (s.reg rs)

/-- MISALIGNED_POLICY at an odd RAM address (R37): `fault` refuses every access; `split` uses the bytes at
`a` and `a + 1` modulo 2^16, but for 0xEFFF; the other accesses do not depend on the policy. -/
def Obligations.MisalignedPolicyDecidesOddRamAccesses : Prop :=
  ∀ (s : State) (a v : Word),
    (IsRamOdd a →
      s.memRead .fault a = .error (.misalignedAccess a .read s.pc)
      ∧ s.memWrite .fault a v = .error (.misalignedAccess a .write s.pc)
      ∧ s.fetchWord .fault a = .error (.misalignedAccess a .fetch s.pc))
    ∧ (IsRamOdd a → a ≠ 0xEFFF →
      (∃ w, s.memRead .split a = .ok (w, s) ∧ s.fetchWord .split a = .ok w ∧ IsWordAt s a w)
      ∧ ∃ t, s.memWrite .split a v = .ok t ∧ StoredWord a v s t)
    ∧ (s.memRead .split 0xEFFF = .error (.misalignedAccess 0xEFFF .read s.pc)
      ∧ s.memWrite .split 0xEFFF v = .error (.misalignedAccess 0xEFFF .write s.pc)
      ∧ s.fetchWord .split 0xEFFF = .error (.misalignedAccess 0xEFFF .fetch s.pc))
    ∧ (¬ IsRamOdd a → s.memRead .split a = s.memRead .fault a
      ∧ s.memWrite .split a v = s.memWrite .fault a v
      ∧ s.fetchWord .split a = s.fetchWord .fault a)

/-- A device access is one transfer to the register at its address: it is recorded, returns or takes the
whole word, changes no RAM byte, and is never misaligned (R37, R38, R40). -/
def Obligations.DeviceAccessTouchesNoRam : Prop :=
  ∀ (pol : MisalignedPolicy) (s : State) (a v : Word), isIO a = true →
    (∃ w t, s.memRead pol a = .ok (w, t) ∧ t.io = s.io ++ [⟨.read, a, w⟩] ∧ t.mem = s.mem)
    ∧ ∃ t, s.memWrite pol a v = .ok t ∧ t.io = s.io ++ [⟨.write, a, v⟩] ∧ t.mem = s.mem

/-- The canonical form is unique: two canonical memories that read alike everywhere are equal. The form is
the model's own (log 2). -/
def Obligations.CanonicalMemoriesThatReadAlikeAreEqual : Prop :=
  ∀ m m' : Memory, m.wf → m'.wf → (∀ a, m.read a = m'.read a) → m = m'

/-- The program load (R181): `mem[2k] = Wk[7:0]`, `mem[2k+1] = Wk[15:8]`, every byte the image does not
cover and every other piece of state as before. -/
def Obligations.LoadPlacesTheImageLittleEndian : Prop :=
  ∀ (s : State) (image : List Word), 2 * image.length ≤ 0xF000 →
    ∃ t, s.loadImage image = some t
      ∧ (∀ (k : Nat) (w : Word), image[k]? = some w →
          t.byte (2 * k) = w.extractLsb' 0 8 ∧ t.byte (2 * k + 1) = w.extractLsb' 8 8)
      ∧ (∀ a, 2 * image.length ≤ a → t.byte a = s.byte a)
      ∧ t.regs = s.regs ∧ t.pc = s.pc ∧ t.sp = s.sp ∧ t.flags = s.flags ∧ RunKept s t ∧ IoKept s t

/-- A store to Console Output appends the character `v[7:0]` to the console output stream (R39); a store to
any other address appends none. -/
def Obligations.ConsoleStoreAppendsTheLowByte : Prop :=
  ∀ (s t : State) (rs : Reg) (addr : Word), exec (.storeDir rs addr) s = .next t →
    t.consoleOutput
      = s.consoleOutput ++ (if addr = 0xF000 then [(s.reg rs).extractLsb' 0 8] else [])

/-! ### Data movement (R80 to R85, R150) -/

/-- R80: `x[rd] <- x[rs]`, no flag. -/
def Obligations.MovCopiesARegister : Prop :=
  ∀ (s : State) (rd rs : Reg),
    encode (.mov rd rs) = [0x00#6 ++ rd.bits ++ rs.bits ++ 0#4]
    ∧ ∃ t, exec (.mov rd rs) s = .next t ∧ t.reg rd = s.reg rs ∧ RegsKeptBut rd s t
        ∧ t.flags = s.flags ∧ t.pc = s.pc + 2 ∧ OnlyAlu s t

/-- R150: only `pc` changes; and NOP is `MOV R0, R0` under another name (R75). -/
def Obligations.NopOnlyMovesPcAndIsMovR0R0 : Prop :=
  encode .nop = [0x0000] ∧ encode (.mov .r0 .r0) = encode .nop
  ∧ ∀ s : State, exec .nop s = .next { s with pc := s.pc + 2 } ∧ exec (.mov .r0 .r0) s = exec .nop s

/-- R81: `x[rd] <- zext_16(imm7)`, no flag. -/
def Obligations.MoviLoadsTheZeroExtendedConstant : Prop :=
  ∀ (s : State) (rd : Reg) (imm : BitVec 7),
    encode (.movi rd imm) = [0x01#6 ++ rd.bits ++ imm]
    ∧ ∃ t, exec (.movi rd imm) s = .next t ∧ (t.reg rd).toNat = imm.toNat ∧ RegsKeptBut rd s t
        ∧ t.flags = s.flags ∧ t.pc = s.pc + 2 ∧ OnlyAlu s t

/-- R82: the word at `(x[rs] + zext_16(imm4)) mod 2^16`, from RAM or a device; MisalignedAccess at an odd
RAM address. -/
def Obligations.LoadIndirectReadsTheWordAtBasePlusOffset : Prop :=
  ∀ (s : State) (rd rs : Reg) (off : BitVec 4),
    encode (.loadInd rd rs off) = [0x02#6 ++ rd.bits ++ rs.bits ++ off]
    ∧ (s.effAddr rs off).toNat = ((s.reg rs).toNat + off.toNat) % 65536
    ∧ Loads (s.effAddr rs off) rd 2 (.loadInd rd rs off) s

/-- R83: the word at `addr`. -/
def Obligations.LoadDirectReadsTheWordAtItsAddress : Prop :=
  ∀ (s : State) (rd : Reg) (addr : Word),
    encode (.loadDir rd addr) = [0x03#6 ++ rd.bits ++ 0#7, addr]
    ∧ Loads addr rd 4 (.loadDir rd addr) s

/-- R84: `x[rs]` goes to `(x[rd] + zext_16(imm4)) mod 2^16`. -/
def Obligations.StoreIndirectWritesTheWordAtBasePlusOffset : Prop :=
  ∀ (s : State) (rs rd : Reg) (off : BitVec 4),
    encode (.storeInd rs rd off) = [0x04#6 ++ rd.bits ++ rs.bits ++ off]
    ∧ (s.effAddr rd off).toNat = ((s.reg rd).toNat + off.toNat) % 65536
    ∧ Stores (s.effAddr rd off) (s.reg rs) 2 (.storeInd rs rd off) s

/-- R85: `x[rs]` goes to `addr`. -/
def Obligations.StoreDirectWritesTheWordAtItsAddress : Prop :=
  ∀ (s : State) (rs : Reg) (addr : Word),
    encode (.storeDir rs addr) = [0x05#6 ++ 0#3 ++ rs.bits ++ 0#4, addr]
    ∧ Stores addr (s.reg rs) 4 (.storeDir rs addr) s

/-! ### Arithmetic (R90 to R97) -/

/-- R90: `(x[rs] + x[rt]) mod 2^16` and the flags of the sum. -/
def Obligations.AddWritesTheSumAndItsFlags : Prop :=
  ∀ (s : State) (rd rs rt : Reg),
    encode (.add rd rs rt) = [0x08#6 ++ rd.bits ++ rs.bits ++ 0#1 ++ rt.bits]
    ∧ CompletesAS rd (s.reg rs + s.reg rt) (SumFlags (s.reg rs) (s.reg rt)) (.add rd rs rt) s

/-- R91: `(x[rs] + zext_16(imm4)) mod 2^16` and the flags of the sum. -/
def Obligations.AddiWritesTheSumAndItsFlags : Prop :=
  ∀ (s : State) (rd rs : Reg) (imm : BitVec 4),
    encode (.addi rd rs imm) = [0x09#6 ++ rd.bits ++ rs.bits ++ imm]
    ∧ CompletesAS rd (s.reg rs + imm.setWidth 16) (SumFlags (s.reg rs) (imm.setWidth 16))
        (.addi rd rs imm) s

/-- R92: `(x[rs] - x[rt]) mod 2^16` and the flags of the difference. -/
def Obligations.SubWritesTheDifferenceAndItsFlags : Prop :=
  ∀ (s : State) (rd rs rt : Reg),
    encode (.sub rd rs rt) = [0x0A#6 ++ rd.bits ++ rs.bits ++ 0#1 ++ rt.bits]
    ∧ CompletesAS rd (s.reg rs - s.reg rt) (DiffFlags (s.reg rs) (s.reg rt)) (.sub rd rs rt) s

/-- R93: `(x[rs] - zext_16(imm4)) mod 2^16` and the flags of the difference. -/
def Obligations.SubiWritesTheDifferenceAndItsFlags : Prop :=
  ∀ (s : State) (rd rs : Reg) (imm : BitVec 4),
    encode (.subi rd rs imm) = [0x0B#6 ++ rd.bits ++ rs.bits ++ imm]
    ∧ CompletesAS rd (s.reg rs - imm.setWidth 16) (DiffFlags (s.reg rs) (imm.setWidth 16))
        (.subi rd rs imm) s

/-- R94: the low 16 bits of the product, Z and N from them, C and O unchanged (CO_POLICY). -/
def Obligations.MulWritesTheLowHalfOfTheProduct : Prop :=
  ∀ (s : State) (rd rs rt : Reg),
    encode (.mul rd rs rt) = [0x0C#6 ++ rd.bits ++ rs.bits ++ 0#1 ++ rt.bits]
    ∧ CompletesZN rd (s.reg rs * s.reg rt) (.mul rd rs rt) s

/-- R95: the floor of the unsigned quotient; DivideByZero when `x[rt] == 0`, with nothing written. -/
def Obligations.DivWritesTheUnsignedQuotientOrFaults : Prop :=
  ∀ (s : State) (rd rs rt : Reg),
    encode (.div rd rs rt) = [0x0D#6 ++ rd.bits ++ rs.bits ++ 0#1 ++ rt.bits]
    ∧ (s.reg rt ≠ 0 → CompletesZN rd (s.reg rs / s.reg rt) (.div rd rs rt) s
        ∧ (s.reg rs / s.reg rt).toNat = (s.reg rs).toNat / (s.reg rt).toNat)
    ∧ (s.reg rt = 0 → Raises (.divideByZero s.pc) (.div rd rs rt) s)

/-- R96, R97: INC adds 1 and DEC subtracts 1, with all four flags, exactly as `ADDI Rd, Rd, 1` and
`SUBI Rd, Rd, 1`. -/
def Obligations.IncAndDecAddAndSubtractOne : Prop :=
  ∀ (s : State) (rd : Reg),
    encode (.inc rd) = [0x0E#6 ++ rd.bits ++ 0#7] ∧ encode (.dec rd) = [0x0F#6 ++ rd.bits ++ 0#7]
    ∧ CompletesAS rd (s.reg rd + 1) (SumFlags (s.reg rd) 1) (.inc rd) s
    ∧ CompletesAS rd (s.reg rd - 1) (DiffFlags (s.reg rd) 1) (.dec rd) s
    ∧ exec (.inc rd) s = exec (.addi rd rd 1) s ∧ exec (.dec rd) s = exec (.subi rd rd 1) s

/-- The class-ZN write-back, by which every instruction of the class ends, under CO_POLICY = any (R18): the
register, Z, N and `pc` are written as under `unchanged`; C and O are whatever they become, free bits that
advance the model's count of draws (log 20); nothing else changes. The machine runs under `unchanged`
(log 5). -/
def Obligations.AnyCoPolicyStillWritesZAndN : Prop :=
  ∀ (s : State) (rd : Reg) (r : Word), ∃ t, s.finishZN .any rd r = .next t
    ∧ t.reg rd = r ∧ RegsKeptBut rd s t ∧ (t.flags.z = true ↔ r = 0) ∧ t.flags.n = r.getLsbD 15
    ∧ t.pc = s.pc + 2 ∧ t.sp = s.sp ∧ MemKept s t ∧ RunKept s t ∧ t.io = s.io

/-! ### Logical and shift (R105 to R110, R115 to R119) -/

/-- R105 to R110: the bitwise result, Z and N from it, C and O unchanged. -/
def Obligations.LogicalInstructionsWriteTheBitwiseResult : Prop :=
  ∀ (s : State) (rd rs rt : Reg) (imm : BitVec 4),
    encode (.and rd rs rt) = [0x10#6 ++ rd.bits ++ rs.bits ++ 0#1 ++ rt.bits]
    ∧ encode (.andi rd rs imm) = [0x11#6 ++ rd.bits ++ rs.bits ++ imm]
    ∧ encode (.or rd rs rt) = [0x12#6 ++ rd.bits ++ rs.bits ++ 0#1 ++ rt.bits]
    ∧ encode (.ori rd rs imm) = [0x13#6 ++ rd.bits ++ rs.bits ++ imm]
    ∧ encode (.xor rd rs rt) = [0x14#6 ++ rd.bits ++ rs.bits ++ 0#1 ++ rt.bits]
    ∧ encode (.not rd rs) = [0x15#6 ++ rd.bits ++ rs.bits ++ 0#4]
    ∧ CompletesZN rd (s.reg rs &&& s.reg rt) (.and rd rs rt) s
    ∧ CompletesZN rd (s.reg rs &&& imm.setWidth 16) (.andi rd rs imm) s
    ∧ CompletesZN rd (s.reg rs ||| s.reg rt) (.or rd rs rt) s
    ∧ CompletesZN rd (s.reg rs ||| imm.setWidth 16) (.ori rd rs imm) s
    ∧ CompletesZN rd (s.reg rs ^^^ s.reg rt) (.xor rd rs rt) s
    ∧ CompletesZN rd (0xFFFF - s.reg rs) (.not rd rs) s

/-- R115, R116: `(a * 2^n) mod 2^16`, the register amount unmasked, so that 16 and more give 0 (R119). -/
def Obligations.LeftShiftsWriteTheTruncatedProduct : Prop :=
  ∀ (s : State) (rd rs rt : Reg) (imm : BitVec 4),
    encode (.shl rd rs rt) = [0x18#6 ++ rd.bits ++ rs.bits ++ 0#1 ++ rt.bits]
    ∧ encode (.shli rd rs imm) = [0x19#6 ++ rd.bits ++ rs.bits ++ imm]
    ∧ CompletesZN rd (s.reg rs <<< (s.reg rt).toNat) (.shl rd rs rt) s
    ∧ CompletesZN rd (s.reg rs <<< imm.toNat) (.shli rd rs imm) s
    ∧ (16 ≤ (s.reg rt).toNat → CompletesZN rd 0 (.shl rd rs rt) s)

/-- R117, R118: `a div 2^n`, logical, the register amount unmasked, so that 16 and more give 0 (R119). -/
def Obligations.RightShiftsWriteTheLogicalQuotient : Prop :=
  ∀ (s : State) (rd rs rt : Reg) (imm : BitVec 4),
    encode (.shr rd rs rt) = [0x1A#6 ++ rd.bits ++ rs.bits ++ 0#1 ++ rt.bits]
    ∧ encode (.shri rd rs imm) = [0x1B#6 ++ rd.bits ++ rs.bits ++ imm]
    ∧ CompletesZN rd (s.reg rs >>> (s.reg rt).toNat) (.shr rd rs rt) s
    ∧ CompletesZN rd (s.reg rs >>> imm.toNat) (.shri rd rs imm) s
    ∧ (16 ≤ (s.reg rt).toNat → CompletesZN rd 0 (.shr rd rs rt) s)

/-! ### Compare (R125, R126) -/

/-- R125, R126: the flags of the difference, no register. -/
def Obligations.ComparesWriteTheFlagsOfTheDifferenceOnly : Prop :=
  ∀ (s : State) (rs rt : Reg) (imm : BitVec 4),
    encode (.cmp rs rt) = [0x1C#6 ++ 0#3 ++ rs.bits ++ 0#1 ++ rt.bits]
    ∧ encode (.cmpi rs imm) = [0x1D#6 ++ 0#3 ++ rs.bits ++ imm]
    ∧ (∃ t, exec (.cmp rs rt) s = .next t ∧ DiffFlags (s.reg rs) (s.reg rt) t.flags ∧ RegsKept s t
        ∧ t.pc = s.pc + 2 ∧ OnlyAlu s t)
    ∧ ∃ t, exec (.cmpi rs imm) s = .next t ∧ DiffFlags (s.reg rs) (imm.setWidth 16) t.flags
        ∧ RegsKept s t ∧ t.pc = s.pc + 2 ∧ OnlyAlu s t

/-- How to read the flags after a compare (44_compare.md's table and R17, which the spec marks as derived):
equal, unsigned below, and signed below as `N xor O`. -/
def Obligations.CompareFlagsDecideTheRelations : Prop :=
  ∀ a b : Word, ((flagsSub a b).2.z = true ↔ a = b)
    ∧ ((flagsSub a b).2.c = true ↔ a.toNat < b.toNat)
    ∧ ((flagsSub a b).2.n ≠ (flagsSub a b).2.o ↔ a.toInt < b.toInt)

/-! ### Branch, call, return (R130 to R138) -/

/-- R130 to R135, R138: the target is copied to `pc` unchanged when the condition holds, else execution
goes on at `a0 + 4`; nothing else changes. -/
def Obligations.JumpsSetPcByTheirCondition : Prop :=
  ∀ (s : State) (addr : Word),
    encode (.jmp addr) = [0x8000, addr] ∧ encode (.jz addr) = [0x8400, addr]
    ∧ encode (.jnz addr) = [0x8800, addr] ∧ encode (.jc addr) = [0x8C00, addr]
    ∧ encode (.jnc addr) = [0x9000, addr] ∧ encode (.jn addr) = [0x9400, addr]
    ∧ JumpsTo addr (.jmp addr) s
    ∧ JumpsTo (if s.flags.z = true then addr else s.pc + 4) (.jz addr) s
    ∧ JumpsTo (if s.flags.z = false then addr else s.pc + 4) (.jnz addr) s
    ∧ JumpsTo (if s.flags.c = true then addr else s.pc + 4) (.jc addr) s
    ∧ JumpsTo (if s.flags.c = false then addr else s.pc + 4) (.jnc addr) s
    ∧ JumpsTo (if s.flags.n = true then addr else s.pc + 4) (.jn addr) s

/-- R136: pushes `a0 + 4` and jumps. -/
def Obligations.CallPushesTheReturnAddressAndJumps : Prop :=
  ∀ (s : State) (addr : Word),
    encode (.call addr) = [0x9800, addr] ∧ s.pushAddr = s.sp - 2
    ∧ Pushes (s.pc + 4) addr (.call addr) s

/-- R137: pops `pc`. -/
def Obligations.RetPopsPc : Prop :=
  encode .ret = [0x9C00] ∧ ∀ s : State,
    (IsRamEven s.sp ∨ isIO s.sp = true → ∃ t, exec .ret s = .next t ∧ ReadsWord s.sp t.pc s t
      ∧ t.sp = s.sp + 2 ∧ RegsKept s t ∧ t.flags = s.flags)
    ∧ (IsRamOdd s.sp → Raises (.misalignedAccess s.sp .read s.pc) .ret s)

/-- A CALL whose stack slot is RAM, then RET, comes back to `a0 + 4` with `sp`, registers and flags as they
were (45_branch.md, R136, R137). -/
def Obligations.RetAfterCallComesBack : Prop :=
  ∀ (s : State) (addr : Word), IsRamEven s.pushAddr →
    ∃ t u, exec (.call addr) s = .next t ∧ t.pc = addr ∧ exec .ret t = .next u ∧ u.pc = s.pc + 4
      ∧ u.sp = s.sp ∧ RegsKept s u ∧ u.flags = s.flags ∧ MemKeptBut s.pushAddr s u

/-! ### Stack and system (R145, R146, R151) -/

/-- R145: `x[rs]` goes to `sp - 2`, which `sp` then holds. -/
def Obligations.PushStoresBelowTheStackPointer : Prop :=
  ∀ (s : State) (rs : Reg),
    encode (.push rs) = [0x28#6 ++ 0#3 ++ rs.bits ++ 0#4] ∧ s.pushAddr = s.sp - 2
    ∧ Pushes (s.reg rs) (s.pc + 2) (.push rs) s

/-- R146: the word at `sp` goes to `x[rd]`, and `sp` moves up by 2; no flag. -/
def Obligations.PopLoadsTheTopOfTheStack : Prop :=
  ∀ (s : State) (rd : Reg),
    encode (.pop rd) = [0x29#6 ++ rd.bits ++ 0#7]
    ∧ (IsRamEven s.sp ∨ isIO s.sp = true → ∃ t, exec (.pop rd) s = .next t
        ∧ ReadsWord s.sp (t.reg rd) s t ∧ t.sp = s.sp + 2 ∧ RegsKeptBut rd s t ∧ t.flags = s.flags
        ∧ t.pc = s.pc + 2)
    ∧ (IsRamOdd s.sp → Raises (.misalignedAccess s.sp .read s.pc) (.pop rd) s)

/-- "`PUSH Ra` followed by `POP Rb` copies `Ra` to `Rb` and restores `sp`" (R146), where the slot is RAM. -/
def Obligations.PopAfterPushCopiesTheRegister : Prop :=
  ∀ (s : State) (ra rb : Reg), IsRamEven s.pushAddr →
    ∃ t u, exec (.push ra) s = .next t ∧ exec (.pop rb) t = .next u ∧ u.reg rb = s.reg ra
      ∧ u.sp = s.sp ∧ RegsKeptBut rb s u ∧ u.flags = s.flags ∧ u.pc = s.pc + 4

/-- R151: `halted` is set, `pc` is the address after HALT, nothing else changes, and the machine never steps
again. -/
def Obligations.HaltStopsTheMachine : Prop :=
  encode .halt = [0xFC00] ∧ ∀ s : State,
    exec .halt s = .next { s with halted := true, pc := s.pc + 2 }
    ∧ ∀ t u, s.Running → exec .halt s = .next t → t.NormalEnd ∧ step t ≠ .next u

/-! ### Assembler syntax (R69, R72) -/

/-- The syntax of an instruction assembles to the instruction (R58, R69). -/
def Obligations.AssemblingAnInstructionsSyntaxGivesItBack : Prop :=
  ∀ (labels : Labels) (i : Instr), (toAsm i).toInstr labels = .ok i

/-- What is assembled is as long as placement counted: 2 bytes, or 4 in the Direct format (R72). -/
def Obligations.AssembledLengthIsThePlacedLength : Prop :=
  ∀ (labels : Labels) (a : AsmInstr) (i : Instr), a.toInstr labels = .ok i →
    a.size = 2 * (encode i).length

/-- Range checks (R72), for every form that takes a value: 0..15 for a 4-bit immediate or offset, 0..127
for MOVI, 0..65535 for an address. A number or label whose value `n` lies in the range is the field; one
outside is an assembly error that names it, never truncated. That a label may stand for an offset too is
log 15. -/
def Obligations.ValuesOutsideTheirRangeAreAssemblyErrors : Prop :=
  ∀ (labels : Labels) (rd rs : Reg) (v : AsmValue) (n : Nat), v.resolve labels = .ok n →
    AssemblesUpTo 15 n labels .addi [.reg rd, .reg rs, .value v] (.addi rd rs (BitVec.ofNat 4 n))
    ∧ AssemblesUpTo 15 n labels .subi [.reg rd, .reg rs, .value v] (.subi rd rs (BitVec.ofNat 4 n))
    ∧ AssemblesUpTo 15 n labels .andi [.reg rd, .reg rs, .value v] (.andi rd rs (BitVec.ofNat 4 n))
    ∧ AssemblesUpTo 15 n labels .ori [.reg rd, .reg rs, .value v] (.ori rd rs (BitVec.ofNat 4 n))
    ∧ AssemblesUpTo 15 n labels .shli [.reg rd, .reg rs, .value v] (.shli rd rs (BitVec.ofNat 4 n))
    ∧ AssemblesUpTo 15 n labels .shri [.reg rd, .reg rs, .value v] (.shri rd rs (BitVec.ofNat 4 n))
    ∧ AssemblesUpTo 15 n labels .cmpi [.reg rs, .value v] (.cmpi rs (BitVec.ofNat 4 n))
    ∧ AssemblesUpTo 15 n labels .load [.reg rd, .mem rs v] (.loadInd rd rs (BitVec.ofNat 4 n))
    ∧ AssemblesUpTo 15 n labels .store [.reg rs, .mem rd v] (.storeInd rs rd (BitVec.ofNat 4 n))
    ∧ AssemblesUpTo 127 n labels .movi [.reg rd, .value v] (.movi rd (BitVec.ofNat 7 n))
    ∧ AssemblesUpTo 65535 n labels .load [.reg rd, .value v] (.loadDir rd (BitVec.ofNat 16 n))
    ∧ AssemblesUpTo 65535 n labels .store [.reg rs, .value v] (.storeDir rs (BitVec.ofNat 16 n))
    ∧ AssemblesUpTo 65535 n labels .jmp [.value v] (.jmp (BitVec.ofNat 16 n))
    ∧ AssemblesUpTo 65535 n labels .jz [.value v] (.jz (BitVec.ofNat 16 n))
    ∧ AssemblesUpTo 65535 n labels .jnz [.value v] (.jnz (BitVec.ofNat 16 n))
    ∧ AssemblesUpTo 65535 n labels .jc [.value v] (.jc (BitVec.ofNat 16 n))
    ∧ AssemblesUpTo 65535 n labels .jnc [.value v] (.jnc (BitVec.ofNat 16 n))
    ∧ AssemblesUpTo 65535 n labels .jn [.value v] (.jn (BitVec.ofNat 16 n))
    ∧ AssemblesUpTo 65535 n labels .call [.value v] (.call (BitVec.ofNat 16 n))
end

