-- ==== Sys2Proof/Laws/Assembler.lean ====
section
/-! SUPPORT. What checking an assembled value against its field can answer. -/

namespace Sys2Proof.Machine

/-- A value that stands for `n`, as a field of `k` bits: the field, or the error that names `n` (R72). -/
theorem AsmValue.field_of_resolve {labels : Labels} {v : AsmValue} {n : Nat}
    (h : v.resolve labels = .ok n) (k : Nat) :
    v.field labels k = if n < 2 ^ k then .ok (BitVec.ofNat k n) else .error (.outOfRange n) := by
  simp [AsmValue.field, h]

/-- A value that stands for no number is the same error in every field (R68). -/
theorem AsmValue.field_of_unresolved {labels : Labels} {v : AsmValue} {e : AsmError}
    (h : v.resolve labels = .error e) (k : Nat) : v.field labels k = .error e := by
  simp [AsmValue.field, h]

end Sys2Proof.Machine
end

