-- ==== Sys2Proof/Laws/Decode.lean ====
section
/-! SUPPORT. How a row of the opcode map is matched, field by field: a word is its opcode and the ten bits
below it, and a mask tests the two apart. -/

namespace Sys2Proof

@[simp] theorem Reg.ofBits_bits (r : Reg) : Reg.ofBits r.bits = r := by cases r <;> rfl

theorem Reg.bits_ofBits (b : BitVec 3) : (Reg.ofBits b).bits = b := by revert b; decide

/-- A word is its opcode and the ten bits below it (R50). -/
theorem word_eq_append (w : Word) : w = opField w ++ w.extractLsb' 0 10 := by
  apply BitVec.eq_of_getLsbD_eq
  intro k hk
  rw [BitVec.getLsbD_append]
  by_cases h : k < 10
  · simp [h]
  · simp [h, opField, show k - 10 < 6 by omega, show 10 + (k - 10) = k by omega]

theorem opField_append (op : BitVec 6) (lo : BitVec 10) : opField (op ++ lo) = op := by
  apply BitVec.eq_of_getLsbD_eq
  intro k hk
  simp only [opField, BitVec.getLsbD_extractLsb', BitVec.getLsbD_append, hk,
    show ¬ 10 + k < 10 by omega, show 10 + k - 10 = k by omega]
  simp

theorem low_append (op : BitVec 6) (lo : BitVec 10) : (op ++ lo).extractLsb' 0 10 = lo := by
  apply BitVec.eq_of_getLsbD_eq
  intro k hk
  simp only [BitVec.getLsbD_extractLsb', BitVec.getLsbD_append, hk, Nat.zero_add]
  simp

/-- A mask tests the opcode and the bits below it apart (R58). -/
theorem row_matches_append (op : BitVec 6) (lo : BitVec 10) (mask bits : Word) :
    ((op ++ lo) &&& mask == bits) =
      ((op &&& opField mask == opField bits)
        && (lo &&& mask.extractLsb' 0 10 == bits.extractLsb' 0 10)) := by
  have split_and : ((op ++ lo : Word) &&& mask)
      = (op &&& opField mask) ++ (lo &&& mask.extractLsb' 0 10) := by
    conv_lhs => rw [word_eq_append mask]
    apply BitVec.eq_of_getLsbD_eq
    intro k _
    simp only [BitVec.getLsbD_and, BitVec.getLsbD_append]
    by_cases h : k < 10 <;> simp [h]
  rw [Bool.eq_iff_iff]
  simp only [beq_iff_eq, Bool.and_eq_true]
  constructor
  · intro h
    rw [← h, split_and]
    exact ⟨(opField_append ..).symm, (low_append ..).symm⟩
  · rintro ⟨h1, h2⟩
    rw [word_eq_append bits, ← h1, ← h2]
    exact split_and

/-- The row a word matches, the word given by its opcode and the bits below it: the first row that matches
both (R62). -/
theorem find_row_append (op : BitVec 6) (lo : BitVec 10) :
    opcodeTable.find? (fun row => (op ++ lo) &&& row.mask == row.bits)
      = opcodeTable.find? (fun row => (op &&& opField row.mask == opField row.bits)
        && (lo &&& row.mask.extractLsb' 0 10 == row.bits.extractLsb' 0 10)) := by
  simp only [row_matches_append]

/-- A word with a matching row decodes by the first one (R62). -/
theorem decodeFirst_of_find {w : Word} {row : OpcodeRow}
    (h : opcodeTable.find? (fun row => w &&& row.mask == row.bits) = some row) :
    decodeFirst w = .ok (row.read w) := by
  simp [decodeFirst, h]

/-- A word with no matching row is illegal (R59, R62). -/
theorem decodeFirst_of_find_none {w : Word}
    (h : opcodeTable.find? (fun row => w &&& row.mask == row.bits) = none) :
    decodeFirst w = .error (.illegal w) := by
  simp [decodeFirst, h]

/-- A word that decodes matches a row of the map, which reads it (R58, R62). -/
theorem decodeFirst_ok {w : Word} {f : FirstWord} (h : decodeFirst w = .ok f) :
    ∃ row ∈ opcodeTable, w &&& row.mask = row.bits ∧ f = row.read w := by
  unfold decodeFirst at h
  split at h
  · next row hr =>
    cases h
    exact ⟨row, List.mem_of_find?_eq_some hr, by simpa using List.find?_some hr, rfl⟩
  · cases h

/-- A word that does not decode is reported as it is (R59). -/
theorem decodeFirst_error {w : Word} {e : DecodeError} (h : decodeFirst w = .error e) :
    e = .illegal w := by
  unfold decodeFirst at h
  split at h <;> cases h
  rfl

end Sys2Proof
end

