-- ==== Sys2Proof/Laws/State.lean ====
section
/-! SUPPORT. One lemma per field per update of the state, and the laws of the register file. -/

namespace Sys2Proof.Machine

/-! ### The register file (R10) -/

@[simp] theorem RegFile.get_set_same (f : RegFile) (r : Reg) (v : Word) : (f.set r v).get r = v := by
  cases r <;> rfl

@[simp] theorem RegFile.get_set_of_ne (f : RegFile) {r q : Reg} (v : Word) (h : q ≠ r) :
    (f.set r v).get q = f.get q := by
  cases r <;> cases q <;> first | rfl | exact absurd rfl h

theorem RegFile.ext_get {f g : RegFile} (h : ∀ r, f.get r = g.get r) : f = g := by
  cases f; cases g
  have h0 := h .r0; have h1 := h .r1; have h2 := h .r2; have h3 := h .r3
  have h4 := h .r4; have h5 := h .r5; have h6 := h .r6; have h7 := h .r7
  simp only [RegFile.get] at h0 h1 h2 h3 h4 h5 h6 h7
  subst_vars; rfl

theorem RegFile.set_get_self (f : RegFile) (r : Reg) : f.set r (f.get r) = f := by
  cases r <;> rfl

@[simp] theorem State.reg_setReg_same (s : State) (r : Reg) (v : Word) :
    (s.setReg r v).reg r = v := RegFile.get_set_same ..

@[simp] theorem State.reg_setReg_of_ne (s : State) {r q : Reg} (v : Word) (h : q ≠ r) :
    (s.setReg r v).reg q = s.reg q := RegFile.get_set_of_ne _ v h

/-! ### One lemma per field per update -/

variable (s : State)

@[simp] theorem State.regs_setReg (r : Reg) (v : Word) : (s.setReg r v).regs = s.regs.set r v := rfl

@[simp] theorem State.pc_setReg (r : Reg) (v : Word) : (s.setReg r v).pc = s.pc := rfl

@[simp] theorem State.sp_setReg (r : Reg) (v : Word) : (s.setReg r v).sp = s.sp := rfl

@[simp] theorem State.flags_setReg (r : Reg) (v : Word) : (s.setReg r v).flags = s.flags := rfl

@[simp] theorem State.mem_setReg (r : Reg) (v : Word) : (s.setReg r v).mem = s.mem := rfl

@[simp] theorem State.halted_setReg (r : Reg) (v : Word) : (s.setReg r v).halted = s.halted := rfl

@[simp] theorem State.fault_setReg (r : Reg) (v : Word) : (s.setReg r v).fault = s.fault := rfl

@[simp] theorem State.io_setReg (r : Reg) (v : Word) : (s.setReg r v).io = s.io := rfl

@[simp] theorem State.draws_setReg (r : Reg) (v : Word) : (s.setReg r v).draws = s.draws := rfl

@[simp] theorem State.byte_setReg (r : Reg) (v : Word) (a : Nat) : (s.setReg r v).byte a = s.byte a := rfl

@[simp] theorem State.regs_setPc (v : Word) : (s.setPc v).regs = s.regs := rfl

@[simp] theorem State.pc_setPc (v : Word) : (s.setPc v).pc = v := rfl

@[simp] theorem State.sp_setPc (v : Word) : (s.setPc v).sp = s.sp := rfl

@[simp] theorem State.flags_setPc (v : Word) : (s.setPc v).flags = s.flags := rfl

@[simp] theorem State.mem_setPc (v : Word) : (s.setPc v).mem = s.mem := rfl

@[simp] theorem State.halted_setPc (v : Word) : (s.setPc v).halted = s.halted := rfl

@[simp] theorem State.fault_setPc (v : Word) : (s.setPc v).fault = s.fault := rfl

@[simp] theorem State.io_setPc (v : Word) : (s.setPc v).io = s.io := rfl

@[simp] theorem State.draws_setPc (v : Word) : (s.setPc v).draws = s.draws := rfl

@[simp] theorem State.reg_setPc (v : Word) (q : Reg) : (s.setPc v).reg q = s.reg q := rfl

@[simp] theorem State.byte_setPc (v : Word) (a : Nat) : (s.setPc v).byte a = s.byte a := rfl

@[simp] theorem State.regs_advance (n : Word) : (s.advance n).regs = s.regs := rfl

@[simp] theorem State.pc_advance (n : Word) : (s.advance n).pc = s.pc + n := rfl

@[simp] theorem State.sp_advance (n : Word) : (s.advance n).sp = s.sp := rfl

@[simp] theorem State.flags_advance (n : Word) : (s.advance n).flags = s.flags := rfl

@[simp] theorem State.mem_advance (n : Word) : (s.advance n).mem = s.mem := rfl

@[simp] theorem State.halted_advance (n : Word) : (s.advance n).halted = s.halted := rfl

@[simp] theorem State.fault_advance (n : Word) : (s.advance n).fault = s.fault := rfl

@[simp] theorem State.io_advance (n : Word) : (s.advance n).io = s.io := rfl

@[simp] theorem State.draws_advance (n : Word) : (s.advance n).draws = s.draws := rfl

@[simp] theorem State.reg_advance (n : Word) (q : Reg) : (s.advance n).reg q = s.reg q := rfl

@[simp] theorem State.byte_advance (n : Word) (a : Nat) : (s.advance n).byte a = s.byte a := rfl

@[simp] theorem State.regs_setSp (v : Word) : (s.setSp v).regs = s.regs := rfl

@[simp] theorem State.pc_setSp (v : Word) : (s.setSp v).pc = s.pc := rfl

@[simp] theorem State.sp_setSp (v : Word) : (s.setSp v).sp = v := rfl

@[simp] theorem State.flags_setSp (v : Word) : (s.setSp v).flags = s.flags := rfl

@[simp] theorem State.mem_setSp (v : Word) : (s.setSp v).mem = s.mem := rfl

@[simp] theorem State.halted_setSp (v : Word) : (s.setSp v).halted = s.halted := rfl

@[simp] theorem State.fault_setSp (v : Word) : (s.setSp v).fault = s.fault := rfl

@[simp] theorem State.io_setSp (v : Word) : (s.setSp v).io = s.io := rfl

@[simp] theorem State.draws_setSp (v : Word) : (s.setSp v).draws = s.draws := rfl

@[simp] theorem State.reg_setSp (v : Word) (q : Reg) : (s.setSp v).reg q = s.reg q := rfl

@[simp] theorem State.byte_setSp (v : Word) (a : Nat) : (s.setSp v).byte a = s.byte a := rfl

@[simp] theorem State.regs_setFlags (f : Flags) : (s.setFlags f).regs = s.regs := rfl

@[simp] theorem State.pc_setFlags (f : Flags) : (s.setFlags f).pc = s.pc := rfl

@[simp] theorem State.sp_setFlags (f : Flags) : (s.setFlags f).sp = s.sp := rfl

@[simp] theorem State.flags_setFlags (f : Flags) : (s.setFlags f).flags = f := rfl

@[simp] theorem State.mem_setFlags (f : Flags) : (s.setFlags f).mem = s.mem := rfl

@[simp] theorem State.halted_setFlags (f : Flags) : (s.setFlags f).halted = s.halted := rfl

@[simp] theorem State.fault_setFlags (f : Flags) : (s.setFlags f).fault = s.fault := rfl

@[simp] theorem State.io_setFlags (f : Flags) : (s.setFlags f).io = s.io := rfl

@[simp] theorem State.draws_setFlags (f : Flags) : (s.setFlags f).draws = s.draws := rfl

@[simp] theorem State.reg_setFlags (f : Flags) (q : Reg) : (s.setFlags f).reg q = s.reg q := rfl

@[simp] theorem State.byte_setFlags (f : Flags) (a : Nat) : (s.setFlags f).byte a = s.byte a := rfl

@[simp] theorem State.regs_setMem (m : Memory) : (s.setMem m).regs = s.regs := rfl

@[simp] theorem State.pc_setMem (m : Memory) : (s.setMem m).pc = s.pc := rfl

@[simp] theorem State.sp_setMem (m : Memory) : (s.setMem m).sp = s.sp := rfl

@[simp] theorem State.flags_setMem (m : Memory) : (s.setMem m).flags = s.flags := rfl

@[simp] theorem State.mem_setMem (m : Memory) : (s.setMem m).mem = m := rfl

@[simp] theorem State.halted_setMem (m : Memory) : (s.setMem m).halted = s.halted := rfl

@[simp] theorem State.fault_setMem (m : Memory) : (s.setMem m).fault = s.fault := rfl

@[simp] theorem State.io_setMem (m : Memory) : (s.setMem m).io = s.io := rfl

@[simp] theorem State.draws_setMem (m : Memory) : (s.setMem m).draws = s.draws := rfl

@[simp] theorem State.reg_setMem (m : Memory) (q : Reg) : (s.setMem m).reg q = s.reg q := rfl

@[simp] theorem State.byte_setMem (m : Memory) (a : Nat) : (s.setMem m).byte a = m.read a := rfl

@[simp] theorem State.regs_halt : (s.halt).regs = s.regs := rfl

@[simp] theorem State.pc_halt : (s.halt).pc = s.pc := rfl

@[simp] theorem State.sp_halt : (s.halt).sp = s.sp := rfl

@[simp] theorem State.flags_halt : (s.halt).flags = s.flags := rfl

@[simp] theorem State.mem_halt : (s.halt).mem = s.mem := rfl

@[simp] theorem State.halted_halt : (s.halt).halted = true := rfl

@[simp] theorem State.fault_halt : (s.halt).fault = s.fault := rfl

@[simp] theorem State.io_halt : (s.halt).io = s.io := rfl

@[simp] theorem State.draws_halt : (s.halt).draws = s.draws := rfl

@[simp] theorem State.reg_halt (q : Reg) : (s.halt).reg q = s.reg q := rfl

@[simp] theorem State.byte_halt (a : Nat) : (s.halt).byte a = s.byte a := rfl

@[simp] theorem State.regs_recordFault (f : Fault) : (s.recordFault f).regs = s.regs := rfl

@[simp] theorem State.pc_recordFault (f : Fault) : (s.recordFault f).pc = s.pc := rfl

@[simp] theorem State.sp_recordFault (f : Fault) : (s.recordFault f).sp = s.sp := rfl

@[simp] theorem State.flags_recordFault (f : Fault) : (s.recordFault f).flags = s.flags := rfl

@[simp] theorem State.mem_recordFault (f : Fault) : (s.recordFault f).mem = s.mem := rfl

@[simp] theorem State.halted_recordFault (f : Fault) : (s.recordFault f).halted = s.halted := rfl

@[simp] theorem State.fault_recordFault (f : Fault) : (s.recordFault f).fault = some f := rfl

@[simp] theorem State.io_recordFault (f : Fault) : (s.recordFault f).io = s.io := rfl

@[simp] theorem State.draws_recordFault (f : Fault) : (s.recordFault f).draws = s.draws := rfl

@[simp] theorem State.reg_recordFault (f : Fault) (q : Reg) : (s.recordFault f).reg q = s.reg q := rfl

@[simp] theorem State.byte_recordFault (f : Fault) (a : Nat) : (s.recordFault f).byte a = s.byte a := rfl

@[simp] theorem State.regs_logIo (e : IoEvent) : (s.logIo e).regs = s.regs := rfl

@[simp] theorem State.pc_logIo (e : IoEvent) : (s.logIo e).pc = s.pc := rfl

@[simp] theorem State.sp_logIo (e : IoEvent) : (s.logIo e).sp = s.sp := rfl

@[simp] theorem State.flags_logIo (e : IoEvent) : (s.logIo e).flags = s.flags := rfl

@[simp] theorem State.mem_logIo (e : IoEvent) : (s.logIo e).mem = s.mem := rfl

@[simp] theorem State.halted_logIo (e : IoEvent) : (s.logIo e).halted = s.halted := rfl

@[simp] theorem State.fault_logIo (e : IoEvent) : (s.logIo e).fault = s.fault := rfl

@[simp] theorem State.io_logIo (e : IoEvent) : (s.logIo e).io = s.io ++ [e] := rfl

@[simp] theorem State.draws_logIo (e : IoEvent) : (s.logIo e).draws = s.draws := rfl

@[simp] theorem State.reg_logIo (e : IoEvent) (q : Reg) : (s.logIo e).reg q = s.reg q := rfl

@[simp] theorem State.byte_logIo (e : IoEvent) (a : Nat) : (s.logIo e).byte a = s.byte a := rfl

@[simp] theorem State.regs_draw : (s.draw).regs = s.regs := rfl

@[simp] theorem State.pc_draw : (s.draw).pc = s.pc := rfl

@[simp] theorem State.sp_draw : (s.draw).sp = s.sp := rfl

@[simp] theorem State.flags_draw : (s.draw).flags = s.flags := rfl

@[simp] theorem State.mem_draw : (s.draw).mem = s.mem := rfl

@[simp] theorem State.halted_draw : (s.draw).halted = s.halted := rfl

@[simp] theorem State.fault_draw : (s.draw).fault = s.fault := rfl

@[simp] theorem State.io_draw : (s.draw).io = s.io := rfl

@[simp] theorem State.draws_draw : (s.draw).draws = s.draws + 1 := rfl

@[simp] theorem State.reg_draw (q : Reg) : (s.draw).reg q = s.reg q := rfl

@[simp] theorem State.byte_draw (a : Nat) : (s.draw).byte a = s.byte a := rfl

end Sys2Proof.Machine
end

