-- ==== Sys2Proof/Laws/Memory.lean ====
section
/-! SUPPORT. The laws of RAM: read after write, every other byte unchanged, and the canonical form kept by
every memory operation. -/

namespace Sys2Proof.Machine

/-! ### Read after write -/

theorem Memory.read_erase_same (m : Memory) (a : Nat) : (m.erase a).read a = Config.memFill := by
  induction m with
  | nil => rfl
  | cons x m ih =>
    obtain ⟨k, b⟩ := x
    simp only [Memory.erase, List.filter_cons, bne_iff_ne, ne_eq] at ih ⊢
    by_cases h : k = a
    · simpa [h] using ih
    · simpa [h, Memory.read, Ne.symm h] using ih

theorem Memory.read_erase_of_ne (m : Memory) {a b : Nat} (h : b ≠ a) :
    (m.erase a).read b = m.read b := by
  induction m with
  | nil => rfl
  | cons x m ih =>
    obtain ⟨k, v⟩ := x
    simp only [Memory.erase, List.filter_cons, bne_iff_ne, ne_eq] at ih ⊢
    by_cases hk : k = a
    · subst hk; simpa [Memory.read, h] using ih
    · by_cases hb : b = k <;> simp [hk, Memory.read, hb, ih]

theorem Memory.read_insert_same (m : Memory) (a : Nat) (v : Byte)
    (h : ∀ x ∈ m, x.1 ≠ a) : (m.insert a v).read a = v := by
  induction m with
  | nil => simp [Memory.insert, Memory.read]
  | cons x m ih =>
    obtain ⟨k, b⟩ := x
    have hk : k ≠ a := h (k, b) (by simp)
    by_cases hlt : a < k
    · simp [Memory.insert, hlt, Memory.read]
    · simp [Memory.insert, hlt, Memory.read, Ne.symm hk, ih fun x hx => h x (by simp [hx])]

theorem Memory.read_insert_of_ne (m : Memory) {a b : Nat} (v : Byte) (h : b ≠ a) :
    (m.insert a v).read b = m.read b := by
  induction m with
  | nil => simp [Memory.insert, Memory.read, h]
  | cons x m ih =>
    obtain ⟨k, w⟩ := x
    by_cases hlt : a < k
    · simp [Memory.insert, hlt, Memory.read, h]
    · by_cases hb : b = k <;> simp [Memory.insert, hlt, Memory.read, hb, ih]

theorem Memory.ne_of_mem_erase {m : Memory} {a : Nat} {x : Host.Cell} (h : x ∈ m.erase a) :
    x.1 ≠ a := by
  simpa using (List.mem_filter.1 h).2

@[simp] theorem Memory.read_write_same (m : Memory) (a : Nat) (v : Byte) :
    (m.write a v).read a = v := by
  unfold Memory.write
  split
  · next h => rw [Memory.read_erase_same, h]
  · exact Memory.read_insert_same _ _ _ fun x hx => Memory.ne_of_mem_erase hx

@[simp] theorem Memory.read_write_of_ne (m : Memory) {a b : Nat} (v : Byte) (h : b ≠ a) :
    (m.write a v).read b = m.read b := by
  unfold Memory.write
  split
  · exact Memory.read_erase_of_ne m h
  · rw [Memory.read_insert_of_ne _ v h, Memory.read_erase_of_ne m h]

/-! ### The canonical form -/

theorem Memory.wf_nil : Memory.wf [] := by simp [Memory.wf]

theorem Memory.wf_erase {m : Memory} (h : m.wf) (a : Nat) : (m.erase a).wf :=
  ⟨h.1.filter _, fun x hx => h.2 x (List.mem_filter.1 hx).1⟩

theorem Memory.mem_insert {m : Memory} {a : Nat} {v : Byte} {x : Host.Cell} :
    x ∈ m.insert a v ↔ x = (a, v) ∨ x ∈ m := by
  induction m with
  | nil => simp [Memory.insert]
  | cons y m ih =>
    obtain ⟨k, b⟩ := y
    by_cases hlt : a < k
    · simp [Memory.insert, hlt]
    · simp [Memory.insert, hlt, ih, or_left_comm]

theorem Memory.pairwise_insert {m : Memory} (a : Nat) (v : Byte)
    (h : m.Pairwise (fun x y => x.1 < y.1)) (hne : ∀ x ∈ m, x.1 ≠ a) :
    (m.insert a v).Pairwise (fun x y => x.1 < y.1) := by
  induction m with
  | nil => simp [Memory.insert]
  | cons y m ih =>
    obtain ⟨k, b⟩ := y
    have hm := List.pairwise_cons.1 h
    by_cases hlt : a < k
    · simp only [Memory.insert, hlt, if_true]
      refine List.pairwise_cons.2 ⟨fun x hx => ?_, h⟩
      rcases List.mem_cons.1 hx with rfl | hx
      · exact hlt
      · exact hlt.trans (hm.1 x hx)
    · simp only [Memory.insert, hlt, if_false]
      refine List.pairwise_cons.2
        ⟨fun x hx => ?_, ih hm.2 fun x hx => hne x (List.mem_cons_of_mem _ hx)⟩
      rcases Memory.mem_insert.1 hx with rfl | hx
      · have : k ≠ a := hne (k, b) (by simp)
        simp only; omega
      · exact hm.1 x hx

theorem Memory.wf_write {m : Memory} (h : m.wf) {a : Nat} (v : Byte) (ha : isRam a = true) :
    (m.write a v).wf := by
  have he := Memory.wf_erase h a
  unfold Memory.write
  split
  · exact he
  · next hv =>
    refine ⟨Memory.pairwise_insert a v he.1 fun x hx => Memory.ne_of_mem_erase hx, fun x hx => ?_⟩
    rcases Memory.mem_insert.1 hx with rfl | hx
    · exact ⟨ha, hv⟩
    · exact he.2 x hx

/-! ### Addresses -/

/-- A 16-bit address is a RAM address exactly when it is no device address (R32, R38). -/
theorem isRam_toNat (a : Word) : isRam a.toNat = !isIO a := by
  have := a.isLt
  simp only [isRam, isIO]
  rw [decide_eq_true (by omega : a.toNat < 0x10000), Bool.true_and]

/-- The device range of the map is Memory-Mapped I/O (R31). -/
theorem isIO_iff_region (a : Word) : isIO a = true ↔ regionOf a = .memoryMappedIO := by
  unfold isIO regionOf
  split
  · simp; omega
  · split
    · simp; omega
    · split <;> simp <;> omega

theorem isOdd_eq (a : Word) : isOdd a = decide (a.toNat % 2 = 1) := by
  simp [isOdd, BitVec.getLsbD, Nat.testBit_zero]

/-- The second byte of a word at an even address that is no device address is at the next RAM address
(R35): all boundaries of the map are even. -/
theorem toNat_succ_of_even {a : Word} (h : isOdd a = false) : (a + 1).toNat = a.toNat + 1 := by
  rw [isOdd_eq] at h
  have := a.isLt
  simp only [decide_eq_false_iff_not] at h
  simp only [BitVec.toNat_add, show (1 : Word).toNat = 1 from rfl]
  omega

theorem isIO_succ_of_even {a : Word} (h : isOdd a = false) : isIO (a + 1) = isIO a := by
  have hs := toNat_succ_of_even h
  rw [isOdd_eq] at h
  simp only [decide_eq_false_iff_not] at h
  simp only [isIO, hs, Bool.and_eq_decide, decide_eq_decide, decide_eq_true_eq]
  omega

theorem succ_ne_self (a : Word) : (a + 1).toNat ≠ a.toNat := by
  have := a.isLt
  simp only [BitVec.toNat_add, show (1 : Word).toNat = 1 from rfl]
  omega

end Sys2Proof.Machine
end

