-- ==== Sys2Proof/Laws/Ops.lean ====
section
/-! SUPPORT. For each shared operation, once, everything it can do. -/

namespace Sys2Proof.Machine

/-! ### Words in memory (R33) -/

@[simp] theorem Word.ofBytes_lo_hi (w : Word) : Word.ofBytes (Word.lo w) (Word.hi w) = w := by
  apply BitVec.eq_of_getLsbD_eq
  intro k hk
  unfold Word.ofBytes Word.lo Word.hi
  rw [BitVec.getLsbD_append]
  by_cases h : k < 8
  · simp [h]
  · simp [h, show k - 8 < 8 by omega, show 8 + (k - 8) = k by omega]

@[simp] theorem Word.lo_ofBytes (lo hi : Byte) : Word.lo (Word.ofBytes lo hi) = lo := by
  apply BitVec.eq_of_getLsbD_eq
  intro k hk
  unfold Word.lo Word.ofBytes
  rw [BitVec.getLsbD_extractLsb', BitVec.getLsbD_append]
  simp [hk]

@[simp] theorem Word.hi_ofBytes (lo hi : Byte) : Word.hi (Word.ofBytes lo hi) = hi := by
  apply BitVec.eq_of_getLsbD_eq
  intro k hk
  unfold Word.hi Word.ofBytes
  rw [BitVec.getLsbD_extractLsb', BitVec.getLsbD_append]
  simp [hk]

theorem State.byte_setRamWord_lo (s : State) (a v : Word) :
    (s.setRamWord a v).byte a.toNat = Word.lo v :=
  (Memory.read_write_of_ne _ _ (succ_ne_self a).symm).trans (Memory.read_write_same ..)

theorem State.byte_setRamWord_hi (s : State) (a v : Word) :
    (s.setRamWord a v).byte (a + 1).toNat = Word.hi v :=
  Memory.read_write_same ..

theorem State.byte_setRamWord_of_ne (s : State) (a v : Word) {b : Nat} (h0 : b ≠ a.toNat)
    (h1 : b ≠ (a + 1).toNat) : (s.setRamWord a v).byte b = s.byte b :=
  (Memory.read_write_of_ne _ _ h1).trans (Memory.read_write_of_ne _ _ h0)

/-- A word written reads back (R43). -/
@[simp] theorem State.ramWord_setRamWord_same (s : State) (a v : Word) :
    (s.setRamWord a v).ramWord a = v := by
  rw [State.ramWord, State.byte_setRamWord_lo, State.byte_setRamWord_hi, Word.ofBytes_lo_hi]

theorem State.wf_setRamWord {s : State} (h : s.mem.wf) {a : Word} (v : Word) (h0 : isIO a = false)
    (h1 : isIO (a + 1) = false) : (s.setRamWord a v).mem.wf := by
  refine Memory.wf_write (Memory.wf_write h _ ?_) _ ?_ <;> rw [isRam_toNat]
  · rw [h0]; rfl
  · rw [h1]; rfl

/-! ### The access primitives (R35, R36, R41) -/

/-- An access under `fault` that is not misaligned is at an even address (R37). -/
theorem misaligned_fault (a : Word) : misaligned .fault a = isOdd a := rfl

/-- An access that is neither at a device nor misaligned has its second byte in RAM (R35, R37). -/
theorem isIO_succ_of_aligned {pol : MisalignedPolicy} {a : Word} (h : isIO a = false)
    (hm : misaligned pol a = false) : isIO (a + 1) = false := by
  cases pol with
  | fault => rw [isIO_succ_of_even hm, h]
  | split =>
    cases ho : isOdd a with
    | false => rw [isIO_succ_of_even ho, h]
    | true => simpa [misaligned, ho] using hm

/-- All that `MemRead` can answer (R35). -/
theorem State.memRead_cases (pol : MisalignedPolicy) (s : State) (a : Word) :
    (isIO a = true ∧ s.memRead pol a = .ok (s.deviceRead a)) ∨
    (isIO a = false ∧ misaligned pol a = true ∧
      s.memRead pol a = .error (.misalignedAccess a .read s.pc)) ∨
    (isIO a = false ∧ misaligned pol a = false ∧ s.memRead pol a = .ok (s.ramWord a, s)) := by
  unfold State.memRead
  cases isIO a <;> cases misaligned pol a <;> simp

/-- All that `MemWrite` can answer (R36). -/
theorem State.memWrite_cases (pol : MisalignedPolicy) (s : State) (a v : Word) :
    (isIO a = true ∧ s.memWrite pol a v = .ok (s.deviceWrite a v)) ∨
    (isIO a = false ∧ misaligned pol a = true ∧
      s.memWrite pol a v = .error (.misalignedAccess a .write s.pc)) ∨
    (isIO a = false ∧ misaligned pol a = false ∧ s.memWrite pol a v = .ok (s.setRamWord a v)) := by
  unfold State.memWrite
  cases isIO a <;> cases misaligned pol a <;> simp

/-- All that `FetchWord` can answer (R41). -/
theorem State.fetchWord_cases (pol : MisalignedPolicy) (s : State) (a : Word) :
    (isIO a = true ∧ s.fetchWord pol a = .error (.fetchFromIO a s.pc)) ∨
    (isIO a = false ∧ misaligned pol a = true ∧
      s.fetchWord pol a = .error (.misalignedAccess a .fetch s.pc)) ∨
    (isIO a = false ∧ misaligned pol a = false ∧ s.fetchWord pol a = .ok (s.ramWord a)) := by
  unfold State.fetchWord
  cases isIO a <;> cases misaligned pol a <;> simp

/-! ### What an outcome can be -/

/-- A load (R82, R83) is a device read, a fault, or a RAM read. -/
theorem State.loadFrom_cases (s : State) (ea : Word) (rd : Reg) (n : Word) :
    (isIO ea = true ∧ s.loadFrom ea rd n =
      .next (((s.deviceRead ea).2.setReg rd (s.deviceRead ea).1).advance n)) ∨
    (isIO ea = false ∧ isOdd ea = true ∧
      s.loadFrom ea rd n = .next (s.recordFault (.misalignedAccess ea .read s.pc))) ∨
    (isIO ea = false ∧ isOdd ea = false ∧
      s.loadFrom ea rd n = .next ((s.setReg rd (s.ramWord ea)).advance n)) := by
  unfold State.loadFrom
  rcases s.memRead_cases Config.misalignedPolicy ea with ⟨h, e⟩ | ⟨h, m, e⟩ | ⟨h, m, e⟩ <;> rw [e]
  · exact .inl ⟨h, rfl⟩
  · exact .inr (.inl ⟨h, m, rfl⟩)
  · exact .inr (.inr ⟨h, m, rfl⟩)

/-- A store (R84, R85) is a device write, a fault, or a RAM write. -/
theorem State.storeTo_cases (s : State) (ea v n : Word) :
    (isIO ea = true ∧ s.storeTo ea v n = .next ((s.deviceWrite ea v).advance n)) ∨
    (isIO ea = false ∧ isOdd ea = true ∧
      s.storeTo ea v n = .next (s.recordFault (.misalignedAccess ea .write s.pc))) ∨
    (isIO ea = false ∧ isOdd ea = false ∧
      s.storeTo ea v n = .next ((s.setRamWord ea v).advance n)) := by
  unfold State.storeTo
  rcases s.memWrite_cases Config.misalignedPolicy ea v with ⟨h, e⟩ | ⟨h, m, e⟩ | ⟨h, m, e⟩ <;> rw [e]
  · exact .inl ⟨h, rfl⟩
  · exact .inr (.inl ⟨h, m, rfl⟩)
  · exact .inr (.inr ⟨h, m, rfl⟩)

/-- A push (R15) is a device write, a fault, or a RAM write. -/
theorem State.pushWord_cases (s : State) (v : Word) :
    (isIO s.pushAddr = true ∧
      s.pushWord Config.misalignedPolicy v = .ok ((s.deviceWrite s.pushAddr v).setSp s.pushAddr)) ∨
    (isIO s.pushAddr = false ∧ isOdd s.pushAddr = true ∧
      s.pushWord Config.misalignedPolicy v = .error (.misalignedAccess s.pushAddr .write s.pc)) ∨
    (isIO s.pushAddr = false ∧ isOdd s.pushAddr = false ∧
      s.pushWord Config.misalignedPolicy v = .ok ((s.setRamWord s.pushAddr v).setSp s.pushAddr)) := by
  unfold State.pushWord
  rcases s.memWrite_cases Config.misalignedPolicy s.pushAddr v with
    ⟨h, e⟩ | ⟨h, m, e⟩ | ⟨h, m, e⟩ <;> rw [e]
  · exact .inl ⟨h, rfl⟩
  · exact .inr (.inl ⟨h, m, rfl⟩)
  · exact .inr (.inr ⟨h, m, rfl⟩)

/-- A pop (R15) is a device read, a fault, or a RAM read. -/
theorem State.popWord_cases (s : State) :
    (isIO s.sp = true ∧ s.popWord Config.misalignedPolicy =
      .ok ((s.deviceRead s.sp).1, (s.deviceRead s.sp).2.setSp (s.sp + 2))) ∨
    (isIO s.sp = false ∧ isOdd s.sp = true ∧
      s.popWord Config.misalignedPolicy = .error (.misalignedAccess s.sp .read s.pc)) ∨
    (isIO s.sp = false ∧ isOdd s.sp = false ∧
      s.popWord Config.misalignedPolicy = .ok (s.ramWord s.sp, s.setSp (s.sp + 2))) := by
  unfold State.popWord
  rcases s.memRead_cases Config.misalignedPolicy s.sp with ⟨h, e⟩ | ⟨h, m, e⟩ | ⟨h, m, e⟩ <;> rw [e]
  · exact .inl ⟨h, rfl⟩
  · exact .inr (.inl ⟨h, m, rfl⟩)
  · exact .inr (.inr ⟨h, m, rfl⟩)

/-- The flags of a class-ZN result under the spec's CO_POLICY (R18). -/
theorem State.setZN_eq (s : State) (r : Word) :
    s.setZN Config.coPolicy r = s.setFlags { s.flags with z := r == 0, n := r.msb } := rfl

/-- A class-ZN write-back under the spec's CO_POLICY (R18). -/
theorem State.finishZN_eq (s : State) (rd : Reg) (r : Word) :
    s.finishZN Config.coPolicy rd r =
      .next (((s.setReg rd r).setFlags { s.flags with z := r == 0, n := r.msb }).advance 2) := rfl

/-- A class-AS write-back (R18). -/
theorem State.finishAS_eq (s : State) (rd : Reg) (p : Word × Flags) :
    s.finishAS rd p = .next (((s.setReg rd p.1).setFlags p.2).advance 2) := rfl

/-- A sum's result (R17). -/
theorem flagsAdd_fst (a b : Word) : (flagsAdd a b).1 = a + b := by
  apply BitVec.eq_of_toNat_eq
  simp [flagsAdd]

/-- A difference's result (R17). -/
theorem flagsSub_fst (a b : Word) : (flagsSub a b).1 = a - b := rfl

/-- A left shift by any amount (R119). -/
theorem shiftLeft_eq (a : Word) (n : Nat) : shiftLeft a n = a <<< n := by
  unfold shiftLeft
  split
  · next h => rw [BitVec.shiftLeft_eq_zero h]; rfl
  · apply BitVec.eq_of_toNat_eq
    simp [Nat.shiftLeft_eq]

/-- A logical right shift by any amount (R119). -/
theorem shiftRight_eq (a : Word) (n : Nat) : shiftRight a n = a >>> n := by
  unfold shiftRight
  apply BitVec.eq_of_toNat_eq
  split
  · next h =>
    symm
    simpa [Nat.shiftRight_eq_div_pow] using a.isLt.trans_le (Nat.pow_le_pow_right (by decide) h)
  · simpa [Nat.shiftRight_eq_div_pow] using (Nat.div_le_self _ _).trans_lt a.isLt

/-- A jump taken (R138). -/
@[simp] theorem State.jumpIf_true (s : State) (addr : Word) :
    s.jumpIf true addr = .next (s.setPc addr) := rfl

/-- A jump not taken (R138). -/
@[simp] theorem State.jumpIf_false (s : State) (addr : Word) :
    s.jumpIf false addr = .next (s.advance 4) := rfl

/-! ### Bytes placed before a run (R181) -/

theorem State.wf_placeByte {s : State} (h : s.mem.wf) (a : Nat) (v : Byte) :
    (s.placeByte a v).mem.wf := by
  unfold State.placeByte
  split
  · next ha => exact Memory.wf_write h v ha
  · exact h

theorem State.wf_placeBytes {s : State} (h : s.mem.wf) (a : Word) (bs : List Byte) :
    (s.placeBytes a bs).mem.wf := by
  induction bs generalizing s a with
  | nil => exact h
  | cons b bs ih => exact ih (State.wf_placeByte h _ _) _

end Sys2Proof.Machine
end

