-- ==== Sys2Proof/Laws/PerInstr.lean ====
section
/-! SUPPORT. The family `EncodeShape`: every instruction encodes to as many words as its opcode says (R60),
and the first word carries its opcode (R58). -/

namespace Sys2Proof.Laws.EncodeShape

/-- The encoding has the instruction's length, and its first word the instruction's opcode. -/
def Statement (i : Instr) : Prop :=
  (encode i).length = i.words ∧ ∃ w rest, encode i = w :: rest ∧ opField w = i.opcode

theorem opField_asm (op : BitVec 6) (rd rs : BitVec 3) (lo4 : BitVec 4) :
    opField (asm op rd rs lo4) = op := by
  apply BitVec.eq_of_getLsbD_eq
  intro k hk
  have h1 : ¬ 10 + k < 4 := by omega
  have h2 : ¬ 10 + k - 4 < 3 := by omega
  have h3 : ¬ 10 + k - 4 - 3 < 3 := by omega
  have h4 : 10 + k - 4 - 3 - 3 = k := by omega
  simp only [opField, asm, BitVec.getLsbD_extractLsb', BitVec.getLsbD_append, h1, h2, h3, h4, hk]
  simp

theorem opField_movi (rd : BitVec 3) (imm : BitVec 7) :
    opField (0x01#6 ++ rd ++ imm) = 0x01#6 := by
  apply BitVec.eq_of_getLsbD_eq
  intro k hk
  have h1 : ¬ 10 + k < 7 := by omega
  have h2 : ¬ 10 + k - 7 < 3 := by omega
  have h3 : 10 + k - 7 - 3 = k := by omega
  simp only [opField, BitVec.getLsbD_extractLsb', BitVec.getLsbD_append, h1, h2, h3, hk]
  simp

theorem mov (rd rs : Reg) : Statement (.mov rd rs) :=
  ⟨rfl, _, _, rfl, opField_asm ..⟩

theorem nop : Statement (.nop) :=
  ⟨rfl, _, _, rfl, rfl⟩

theorem movi (rd : Reg) (imm : BitVec 7) : Statement (.movi rd imm) :=
  ⟨rfl, _, _, rfl, opField_movi ..⟩

theorem loadInd (rd rs : Reg) (off : BitVec 4) : Statement (.loadInd rd rs off) :=
  ⟨rfl, _, _, rfl, opField_asm ..⟩

theorem loadDir (rd : Reg) (addr : Word) : Statement (.loadDir rd addr) :=
  ⟨rfl, _, _, rfl, opField_asm ..⟩

theorem storeInd (rs rd : Reg) (off : BitVec 4) : Statement (.storeInd rs rd off) :=
  ⟨rfl, _, _, rfl, opField_asm ..⟩

theorem storeDir (rs : Reg) (addr : Word) : Statement (.storeDir rs addr) :=
  ⟨rfl, _, _, rfl, opField_asm ..⟩

theorem add (rd rs rt : Reg) : Statement (.add rd rs rt) :=
  ⟨rfl, _, _, rfl, opField_asm ..⟩

theorem addi (rd rs : Reg) (imm : BitVec 4) : Statement (.addi rd rs imm) :=
  ⟨rfl, _, _, rfl, opField_asm ..⟩

theorem sub (rd rs rt : Reg) : Statement (.sub rd rs rt) :=
  ⟨rfl, _, _, rfl, opField_asm ..⟩

theorem subi (rd rs : Reg) (imm : BitVec 4) : Statement (.subi rd rs imm) :=
  ⟨rfl, _, _, rfl, opField_asm ..⟩

theorem mul (rd rs rt : Reg) : Statement (.mul rd rs rt) :=
  ⟨rfl, _, _, rfl, opField_asm ..⟩

theorem div (rd rs rt : Reg) : Statement (.div rd rs rt) :=
  ⟨rfl, _, _, rfl, opField_asm ..⟩

theorem inc (rd : Reg) : Statement (.inc rd) :=
  ⟨rfl, _, _, rfl, opField_asm ..⟩

theorem dec (rd : Reg) : Statement (.dec rd) :=
  ⟨rfl, _, _, rfl, opField_asm ..⟩

theorem and (rd rs rt : Reg) : Statement (.and rd rs rt) :=
  ⟨rfl, _, _, rfl, opField_asm ..⟩

theorem andi (rd rs : Reg) (imm : BitVec 4) : Statement (.andi rd rs imm) :=
  ⟨rfl, _, _, rfl, opField_asm ..⟩

theorem or (rd rs rt : Reg) : Statement (.or rd rs rt) :=
  ⟨rfl, _, _, rfl, opField_asm ..⟩

theorem ori (rd rs : Reg) (imm : BitVec 4) : Statement (.ori rd rs imm) :=
  ⟨rfl, _, _, rfl, opField_asm ..⟩

theorem xor (rd rs rt : Reg) : Statement (.xor rd rs rt) :=
  ⟨rfl, _, _, rfl, opField_asm ..⟩

theorem not (rd rs : Reg) : Statement (.not rd rs) :=
  ⟨rfl, _, _, rfl, opField_asm ..⟩

theorem shl (rd rs rt : Reg) : Statement (.shl rd rs rt) :=
  ⟨rfl, _, _, rfl, opField_asm ..⟩

theorem shli (rd rs : Reg) (imm : BitVec 4) : Statement (.shli rd rs imm) :=
  ⟨rfl, _, _, rfl, opField_asm ..⟩

theorem shr (rd rs rt : Reg) : Statement (.shr rd rs rt) :=
  ⟨rfl, _, _, rfl, opField_asm ..⟩

theorem shri (rd rs : Reg) (imm : BitVec 4) : Statement (.shri rd rs imm) :=
  ⟨rfl, _, _, rfl, opField_asm ..⟩

theorem cmp (rs rt : Reg) : Statement (.cmp rs rt) :=
  ⟨rfl, _, _, rfl, opField_asm ..⟩

theorem cmpi (rs : Reg) (imm : BitVec 4) : Statement (.cmpi rs imm) :=
  ⟨rfl, _, _, rfl, opField_asm ..⟩

theorem jmp (addr : Word) : Statement (.jmp addr) :=
  ⟨rfl, _, _, rfl, opField_asm ..⟩

theorem jz (addr : Word) : Statement (.jz addr) :=
  ⟨rfl, _, _, rfl, opField_asm ..⟩

theorem jnz (addr : Word) : Statement (.jnz addr) :=
  ⟨rfl, _, _, rfl, opField_asm ..⟩

theorem jc (addr : Word) : Statement (.jc addr) :=
  ⟨rfl, _, _, rfl, opField_asm ..⟩

theorem jnc (addr : Word) : Statement (.jnc addr) :=
  ⟨rfl, _, _, rfl, opField_asm ..⟩

theorem jn (addr : Word) : Statement (.jn addr) :=
  ⟨rfl, _, _, rfl, opField_asm ..⟩

theorem call (addr : Word) : Statement (.call addr) :=
  ⟨rfl, _, _, rfl, opField_asm ..⟩

theorem ret : Statement (.ret) :=
  ⟨rfl, _, _, rfl, opField_asm ..⟩

theorem push (rs : Reg) : Statement (.push rs) :=
  ⟨rfl, _, _, rfl, opField_asm ..⟩

theorem pop (rd : Reg) : Statement (.pop rd) :=
  ⟨rfl, _, _, rfl, opField_asm ..⟩

theorem halt : Statement (.halt) :=
  ⟨rfl, _, _, rfl, opField_asm ..⟩

end Sys2Proof.Laws.EncodeShape
end

