-- ==== Sys2Proof/Laws/Step.lean ====
section
/-! SUPPORT. What a step can do, once: the fetch, the meanings grouped by what they write, the step. -/

namespace Sys2Proof.Machine

/-- All that the fetch of an instruction can answer (R61, R163), in the order it is found. -/
theorem State.fetchInstr_ok {pol : MisalignedPolicy} {s : State} {i : Instr}
    (h : s.fetchInstr pol = .ok i) :
    isIO s.pc = false ∧ misaligned pol s.pc = false ∧
      (decodeFirst (s.ramWord s.pc) = .ok (.whole i) ∨
        ∃ d, decodeFirst (s.ramWord s.pc) = .ok (.direct d) ∧ isIO (s.pc + 2) = false ∧
          misaligned pol (s.pc + 2) = false ∧ i = d.withAddr (s.ramWord (s.pc + 2))) := by
  unfold State.fetchInstr at h
  rcases s.fetchWord_cases pol s.pc with ⟨_, e⟩ | ⟨_, _, e⟩ | ⟨hio, hm, e⟩ <;> simp only [e] at h
  · cases h
  · cases h
  · refine ⟨hio, hm, ?_⟩
    split at h
    · cases h
    · next j hd => cases h; exact .inl hd
    · next d hd =>
      rcases s.fetchWord_cases pol (s.pc + 2) with ⟨_, e2⟩ | ⟨_, _, e2⟩ | ⟨hio2, hm2, e2⟩ <;>
        simp only [e2] at h
      · cases h
      · cases h
      · cases h; exact .inr ⟨d, hd, hio2, hm2, rfl⟩

/-- What the fetch answers is what the bytes at `pc` decode to (R60, R61). -/
theorem decodesAtPc_of_fetchInstr {pol : MisalignedPolicy} {s : State} {i : Instr}
    (h : s.fetchInstr pol = .ok i) : DecodesAtPc s i := by
  have e : s.pc + 3 = s.pc + 2 + 1 := by rw [BitVec.add_assoc]; rfl
  obtain ⟨-, -, hd | ⟨d, hd, -, -, rfl⟩⟩ := State.fetchInstr_ok h <;>
    · simp only [State.ramWord] at hd
      exact ⟨_, by simp only [decodeBytes, hd]; first | rfl | (rw [e]; rfl)⟩

/-- If a step answers a next state, the machine was running, and it either recorded a fetch fault or ran
the fetched instruction (R61). -/
theorem step_next {s t : State} (h : step s = .next t) :
    s.fault = none ∧ s.halted = false ∧
      ((∃ f, s.fetchInstr Config.misalignedPolicy = .error f ∧ t = s.recordFault f) ∨
        ∃ i, s.fetchInstr Config.misalignedPolicy = .ok i ∧ exec i s = .next t) := by
  unfold step at h
  split at h
  · cases h
  · next hf =>
    refine ⟨hf, ?_⟩
    split at h
    · cases h
    · next hh =>
      refine ⟨by simpa using hh, ?_⟩
      split at h
      · next f e => cases h; exact .inl ⟨f, e, rfl⟩
      · next i e => exact .inr ⟨i, e, h⟩

/-- A running machine's step whose fetch faults records the fault (R61, R162). -/
theorem step_of_fetch_error {s : State} {f : Fault} (hf : s.fault = none) (hh : s.halted = false)
    (h : s.fetchInstr Config.misalignedPolicy = .error f) : step s = s.takeFault f := by
  simp [step, hf, hh, h]

/-- A running machine's step whose fetch answers an instruction runs it (R61). -/
theorem step_of_fetch_ok {s : State} {i : Instr} (hf : s.fault = none) (hh : s.halted = false)
    (h : s.fetchInstr Config.misalignedPolicy = .ok i) : step s = exec i s := by
  simp [step, hf, hh, h]

end Sys2Proof.Machine
end

