-- ==== Sys2Proof/Tests/Slice0.lean ====
section
/-! SUPPORT. Tests: words and one-step vectors taken from the spec (95_test_vectors.md, cited by their section), and
witnesses that the hypotheses of the statements can be met. -/

open Sys2Proof Sys2Proof.Machine

namespace Sys2Proof.Tests

/-! ### Helpers -/

/-- Part B's state before each step: Z=0, C=1, N=0, O=1, so that `flags.toWord` is 0x000A. -/
def start : State := { State.reset with flags := ⟨false, true, false, true⟩ }

/-- A state with some registers set. -/
def withRegs (s : State) (rs : List (Reg × Word)) : State := rs.foldl (fun t p => t.setReg p.1 p.2) s

/-- The state after one step of `s` with the words placed at its `pc`. -/
def run (words : List Word) (s : State) : Option State :=
  match step (s.placeBytes s.pc (words.flatMap Word.bytes)) with
  | .next t => some t
  | _ => none

/-- The register `rd`, FLAGS as a word (O N C Z in bits 3 to 0), and `pc`. -/
def view (rd : Reg) (t : State) : Word × Word × Word := (t.reg rd, t.flags.toWord, t.pc)

/-! ### Well-formedness (log 10) -/

theorem test_wellFormed_refuses_mov_r0_r0 : Instr.wellFormed (.mov .r0 .r0) = false := by decide

theorem test_wellFormed_accepts_its_neighbours :
    Instr.wellFormed (.mov .r1 .r0) = true ∧ Instr.wellFormed (.mov .r0 .r1) = true
      ∧ Instr.wellFormed .nop = true := by decide

/-! ### Decoding, a word of every constructor (parts A and B) -/

/-- A4, A5, B1, B2. -/
theorem test_decode_data_movement :
    decodeTableWord 16 0x00A0 = some (.mov .r1 .r2)
      ∧ decodeTableWord 16 0x0000 = some .nop
      ∧ decodeTableWord 16 0x042A = some (.movi .r0 42)
      ∧ decodeTableWord 16 0x07FF = some (.movi .r7 127)
      ∧ decodeTableWord 16 0x08A4 = some (.loadInd .r1 .r2 4)
      ∧ decodeTableWord 16 0x0853 = some (.loadInd .r0 .r5 3)
      ∧ decodeTableWord 32 0x10000C80 = some (.loadDir .r1 0x1000)
      ∧ decodeTableWord 16 0x1082 = some (.storeInd .r0 .r1 2)
      ∧ decodeTableWord 32 0x80001410 = some (.storeDir .r1 0x8000) := by decide

/-- A1, A5, B3, C. -/
theorem test_decode_arithmetic :
    decodeTableWord 16 0x20A3 = some (.add .r1 .r2 .r3)
      ∧ decodeTableWord 16 0x24A5 = some (.addi .r1 .r2 5)
      ∧ decodeTableWord 16 0x2AE7 = some (.sub .r5 .r6 .r7)
      ∧ decodeTableWord 16 0x2C1F = some (.subi .r0 .r1 15)
      ∧ decodeTableWord 16 0x3012 = some (.mul .r0 .r1 .r2)
      ∧ decodeTableWord 16 0x3501 = some (.div .r2 .r0 .r1)
      ∧ decodeTableWord 16 0x3800 = some (.inc .r0)
      ∧ decodeTableWord 16 0x3D00 = some (.dec .r2) := by decide

/-- A5, B4. -/
theorem test_decode_logical :
    decodeTableWord 16 0x4012 = some (.and .r0 .r1 .r2)
      ∧ decodeTableWord 16 0x441F = some (.andi .r0 .r1 15)
      ∧ decodeTableWord 16 0x49C5 = some (.or .r3 .r4 .r5)
      ∧ decodeTableWord 16 0x4C15 = some (.ori .r0 .r1 5)
      ∧ decodeTableWord 16 0x5366 = some (.xor .r6 .r6 .r6)
      ∧ decodeTableWord 16 0x5770 = some (.not .r6 .r7) := by decide

/-- B5. -/
theorem test_decode_shift :
    decodeTableWord 16 0x6012 = some (.shl .r0 .r1 .r2)
      ∧ decodeTableWord 16 0x649C = some (.shli .r1 .r1 12)
      ∧ decodeTableWord 16 0x6812 = some (.shr .r0 .r1 .r2)
      ∧ decodeTableWord 16 0x6C14 = some (.shri .r0 .r1 4) := by decide

/-- B6. -/
theorem test_decode_compare :
    decodeTableWord 16 0x7012 = some (.cmp .r1 .r2)
      ∧ decodeTableWord 16 0x740A = some (.cmpi .r0 10) := by decide

/-- B7. -/
theorem test_decode_branch :
    decodeTableWord 32 0x01008000 = some (.jmp 0x0100)
      ∧ decodeTableWord 32 0x00108400 = some (.jz 0x0010)
      ∧ decodeTableWord 32 0x00028800 = some (.jnz 0x0002)
      ∧ decodeTableWord 32 0x00408C00 = some (.jc 0x0040)
      ∧ decodeTableWord 32 0x00409000 = some (.jnc 0x0040)
      ∧ decodeTableWord 32 0x00409400 = some (.jn 0x0040)
      ∧ decodeTableWord 32 0x00209800 = some (.call 0x0020)
      ∧ decodeTableWord 16 0x9C00 = some .ret := by decide

/-- B8, B9. -/
theorem test_decode_stack_and_system :
    decodeTableWord 16 0xA030 = some (.push .r3)
      ∧ decodeTableWord 16 0xA680 = some (.pop .r5)
      ∧ decodeTableWord 16 0xFC00 = some .halt := by decide

/-- B1, its illegal words. -/
theorem test_illegal_words_are_refused :
    [0x0001, 0x0C81, 0x1480, 0x1800, 0x1C00, 0x2008, 0x3810, 0x540F, 0x5800, 0x5C00,
      0x7080, 0x7480, 0x7800, 0x7C00, 0x8001, 0x9C01, 0xA080, 0xA800, 0xF800, 0xFFFF].all (fun w => (decodeTableWord 16 w).isNone) = true := by decide

/-- A1, A2, A3: what the encoder writes. -/
theorem test_encode_examples :
    encode (.add .r1 .r2 .r3) = [0x20A3] ∧ encode (.movi .r0 15) = [0x040F]
      ∧ encodeBytes (.jmp 0x0100) = [0x00, 0x80, 0x00, 0x01] := by decide

/-- A7: Z=1, C=0, N=1, O=0 is FLAGS = 0x0005. -/
theorem test_flags_word : Flags.toWord ⟨true, false, true, false⟩ = 0x0005 := by decide

/-! ### One step of each instruction (Part B) -/

/-- B2 `MOV R1, R2`. -/
theorem test_mov : (run [0x00A0] (withRegs start [(.r2, 0xBEEF)])).map (view .r1)
    = some (0xBEEF, 0x000A, 0x0002) := by decide

/-- B2 `MOVI R0, 0`. -/
theorem test_movi_zero_sets_no_flag : (run [0x0400] (withRegs start [(.r0, 0xFFFF)])).map (view .r0)
    = some (0x0000, 0x000A, 0x0002) := by decide

/-- B2 `MOVI R7, 127`. -/
theorem test_movi_127 : (run [0x07FF] (withRegs start [(.r7, 0xFFFF)])).map (view .r7)
    = some (0x007F, 0x000A, 0x0002) := by decide

/-- B3. -/
theorem test_add_carry : (run [0x2012] (withRegs start [(.r1, 0xFFFF), (.r2, 0x0001)])).map (view .r0)
    = some (0x0000, 0x0003, 0x0002) := by decide

/-- B3 `ADD R1, R1, R1`. -/
theorem test_add_overflow : (run [0x2091] (withRegs start [(.r1, 0x4000)])).map (view .r1)
    = some (0x8000, 0x000C, 0x0002) := by decide

/-- B3. -/
theorem test_addi_15 : (run [0x241F] (withRegs start [(.r1, 0xFFF1)])).map (view .r0)
    = some (0x0000, 0x0003, 0x0002) := by decide

/-- B3. -/
theorem test_addi_0 : (run [0x2410] (withRegs start [(.r1, 0x8000)])).map (view .r0)
    = some (0x8000, 0x0004, 0x0002) := by decide

/-- B3. -/
theorem test_sub_borrow : (run [0x2812] (withRegs start [(.r1, 0x0000), (.r2, 0x0001)])).map (view .r0)
    = some (0xFFFF, 0x0006, 0x0002) := by decide

/-- B3. -/
theorem test_sub_borrow_overflow : (run [0x2812] (withRegs start [(.r1, 0x7FFF), (.r2, 0xFFFF)])).map (view .r0)
    = some (0x8000, 0x000E, 0x0002) := by decide

/-- B3. -/
theorem test_subi_15 : (run [0x2C1F] (withRegs start [(.r1, 0x000A)])).map (view .r0)
    = some (0xFFFB, 0x0006, 0x0002) := by decide

/-- B3. -/
theorem test_subi_overflow : (run [0x2C11] (withRegs start [(.r1, 0x8000)])).map (view .r0)
    = some (0x7FFF, 0x0008, 0x0002) := by decide

/-- B3, 300 * 300. -/
theorem test_mul_low_half : (run [0x3012] (withRegs start [(.r1, 0x012C), (.r2, 0x012C)])).map (view .r0)
    = some (0x5F90, 0x000A, 0x0002) := by decide

/-- B3. -/
theorem test_mul_negative : (run [0x3012] (withRegs start [(.r1, 0xFFFF), (.r2, 0x0002)])).map (view .r0)
    = some (0xFFFE, 0x000E, 0x0002) := by decide

/-- B3. -/
theorem test_div_unsigned : (run [0x3412] (withRegs start [(.r1, 0x8000), (.r2, 0xFFFF)])).map (view .r0)
    = some (0x0000, 0x000B, 0x0002) := by decide

/-- B3. -/
theorem test_inc_wraps : (run [0x3800] (withRegs start [(.r0, 0xFFFF)])).map (view .r0)
    = some (0x0000, 0x0003, 0x0002) := by decide

/-- B3. -/
theorem test_inc_overflow : (run [0x3800] (withRegs start [(.r0, 0x7FFF)])).map (view .r0)
    = some (0x8000, 0x000C, 0x0002) := by decide

/-- B3. -/
theorem test_dec_wraps : (run [0x3C00] (withRegs start [(.r0, 0x0000)])).map (view .r0)
    = some (0xFFFF, 0x0006, 0x0002) := by decide

/-- B3. -/
theorem test_dec_overflow : (run [0x3C00] (withRegs start [(.r0, 0x8000)])).map (view .r0)
    = some (0x7FFF, 0x0008, 0x0002) := by decide

/-- B4. -/
theorem test_and : (run [0x4012] (withRegs start [(.r1, 0xF0F0), (.r2, 0xFF00)])).map (view .r0)
    = some (0xF000, 0x000E, 0x0002) := by decide

/-- B4. -/
theorem test_andi : (run [0x441F] (withRegs start [(.r1, 0xABCD)])).map (view .r0)
    = some (0x000D, 0x000A, 0x0002) := by decide

/-- B4. -/
theorem test_or : (run [0x49C5] (withRegs start [(.r4, 0x00F0), (.r5, 0x0F00)])).map (view .r3)
    = some (0x0FF0, 0x000A, 0x0002) := by decide

/-- B4. -/
theorem test_ori : (run [0x4C15] (withRegs start [(.r1, 0x8000)])).map (view .r0)
    = some (0x8005, 0x000E, 0x0002) := by decide

/-- B4. -/
theorem test_xor : (run [0x5012] (withRegs start [(.r1, 0xAAAA), (.r2, 0xFFFF)])).map (view .r0)
    = some (0x5555, 0x000A, 0x0002) := by decide

/-- B4. -/
theorem test_xor_self : (run [0x5366] (withRegs start [(.r6, 0x1234)])).map (view .r6)
    = some (0x0000, 0x000B, 0x0002) := by decide

/-- B4. -/
theorem test_not : (run [0x5770] (withRegs start [(.r7, 0x00FF)])).map (view .r6)
    = some (0xFF00, 0x000E, 0x0002) := by decide

/-- B5. -/
theorem test_shl : (run [0x6012] (withRegs start [(.r1, 0x00FF), (.r2, 0x0008)])).map (view .r0)
    = some (0xFF00, 0x000E, 0x0002) := by decide

/-- B5. -/
theorem test_shl_by_16 : (run [0x6012] (withRegs start [(.r1, 0xFFFF), (.r2, 0x0010)])).map (view .r0)
    = some (0x0000, 0x000B, 0x0002) := by decide

/-- B5. -/
theorem test_shli : (run [0x649C] (withRegs start [(.r1, 0x000F)])).map (view .r1)
    = some (0xF000, 0x000E, 0x0002) := by decide

/-- B5. -/
theorem test_shr : (run [0x6812] (withRegs start [(.r1, 0x8000), (.r2, 0x000F)])).map (view .r0)
    = some (0x0001, 0x000A, 0x0002) := by decide

/-- B5. -/
theorem test_shr_by_16 : (run [0x6812] (withRegs start [(.r1, 0x8000), (.r2, 0x0010)])).map (view .r0)
    = some (0x0000, 0x000B, 0x0002) := by decide

/-- B5. -/
theorem test_shri : (run [0x6C14] (withRegs start [(.r1, 0xABCD)])).map (view .r0)
    = some (0x0ABC, 0x000A, 0x0002) := by decide

/-- B6. -/
theorem test_cmp_unsigned_below_only : (run [0x7012] (withRegs start [(.r1, 0x0000), (.r2, 0xFFFF)])).map (view .r1)
    = some (0x0000, 0x0002, 0x0002) := by decide

/-- B6. -/
theorem test_cmp_signed_below_only : (run [0x7012] (withRegs start [(.r1, 0x8000), (.r2, 0x0001)])).map (view .r1)
    = some (0x8000, 0x0008, 0x0002) := by decide

/-- B6. -/
theorem test_cmpi_below : (run [0x741A] (withRegs start [(.r1, 0x0009)])).map (view .r1)
    = some (0x0009, 0x0006, 0x0002) := by decide

/-- B6. -/
theorem test_cmpi_zero : (run [0x7410] (withRegs start [(.r1, 0x8000)])).map (view .r1)
    = some (0x8000, 0x0004, 0x0002) := by decide

/-- B3: a division by zero records DivideByZero and writes nothing. -/
theorem test_div_by_zero :
    (run [0x3412] (withRegs start [(.r0, 0x5555), (.r1, 3)])).map (fun t => (t.fault, view .r0 t))
      = some (some (.divideByZero 0x0000), 0x5555, 0x000A, 0x0000) := by decide

/-- B2 `LOAD R3, [R4+4]`: the address wraps. -/
theorem test_loadInd_wraps :
    (run [0x09C4] ((withRegs start [(.r4, 0xFFFE)]).setRamWord 0x0002 0x2499)).map (view .r3)
      = some (0x2499, 0x000A, 0x0002) := by decide

/-- B2 `LOAD R0, [R1+1]`: misaligned. -/
theorem test_loadInd_misaligned :
    (run [0x0811] (withRegs start [(.r1, 0x8000)])).map (fun t => (t.fault, view .r0 t))
      = some (some (.misalignedAccess 0x8001 .read 0x0000), 0x0000, 0x000A, 0x0000) := by decide

/-- B2 `LOAD R1, 0x1000`. -/
theorem test_loadDir :
    (run [0x0C80, 0x1000] (start.setRamWord 0x1000 0xABCD)).map (view .r1)
      = some (0xABCD, 0x000A, 0x0004) := by decide

/-- B2 `LOAD R1, 0xF001`: the device's value, recorded. -/
theorem test_loadDir_device :
    (run [0x0C80, 0xF001] start).map (fun t => (t.reg .r1, t.io))
      = some (Config.devRead 0 0xF001, [⟨.read, 0xF001, Config.devRead 0 0xF001⟩]) := rfl

/-- B2 `STORE R2, [R2]`. -/
theorem test_storeInd :
    (run [0x1120] (withRegs start [(.r2, 0x9000)])).map (fun t => (t.byte 0x9000, t.byte 0x9001))
      = some (0x00, 0x90) := by decide

/-- B2 `STORE R1, 0x8000`. -/
theorem test_storeDir :
    (run [0x1410, 0x8000] (withRegs start [(.r1, 0x0102)])).map
      (fun t => (t.byte 0x8000, t.byte 0x8001, t.pc)) = some (0x02, 0x01, 0x0004) := by decide

/-- B2 `STORE R3, 0xF000`: recorded, and the character 0x41 goes to the console. -/
theorem test_storeDir_device :
    (run [0x1430, 0xF000] (withRegs start [(.r3, 0x0141)])).map (fun t => (t.io, t.consoleOutput))
      = some ([⟨.write, 0xF000, 0x0141⟩], [0x41]) := by decide

/-- B7. -/
theorem test_jmp :
    (run [0x8000, 0x0007] (({ start with flags := ⟨false, true, false, true⟩ } : State).setPc 0x0000)).map (·.pc) = some 0x0007 := by
  decide

/-- B7. -/
theorem test_jz_taken :
    (run [0x8400, 0x0010] (({ start with flags := ⟨true, false, false, false⟩ } : State).setPc 0x0002)).map (·.pc) = some 0x0010 := by
  decide

/-- B7. -/
theorem test_jz_not_taken :
    (run [0x8400, 0x0010] (({ start with flags := ⟨false, true, true, true⟩ } : State).setPc 0x0002)).map (·.pc) = some 0x0006 := by
  decide

/-- B7. -/
theorem test_jnz_taken :
    (run [0x8800, 0x0002] (({ start with flags := ⟨false, true, true, true⟩ } : State).setPc 0x0006)).map (·.pc) = some 0x0002 := by
  decide

/-- B7. -/
theorem test_jnz_not_taken :
    (run [0x8800, 0x0002] (({ start with flags := ⟨true, false, false, false⟩ } : State).setPc 0x0006)).map (·.pc) = some 0x000A := by
  decide

/-- B7. -/
theorem test_jc_taken :
    (run [0x8C00, 0x0040] (({ start with flags := ⟨false, true, false, false⟩ } : State).setPc 0x0020)).map (·.pc) = some 0x0040 := by
  decide

/-- B7. -/
theorem test_jc_not_taken :
    (run [0x8C00, 0x0040] (({ start with flags := ⟨true, false, true, true⟩ } : State).setPc 0x0020)).map (·.pc) = some 0x0024 := by
  decide

/-- B7. -/
theorem test_jnc_taken :
    (run [0x9000, 0x0040] (({ start with flags := ⟨true, false, true, true⟩ } : State).setPc 0x0020)).map (·.pc) = some 0x0040 := by
  decide

/-- B7. -/
theorem test_jnc_not_taken :
    (run [0x9000, 0x0040] (({ start with flags := ⟨false, true, false, false⟩ } : State).setPc 0x0020)).map (·.pc) = some 0x0024 := by
  decide

/-- B7. -/
theorem test_jn_taken :
    (run [0x9400, 0x0040] (({ start with flags := ⟨false, false, true, false⟩ } : State).setPc 0x0020)).map (·.pc) = some 0x0040 := by
  decide

/-- B7. -/
theorem test_jn_not_taken :
    (run [0x9400, 0x0040] (({ start with flags := ⟨true, true, false, true⟩ } : State).setPc 0x0020)).map (·.pc) = some 0x0024 := by
  decide

/-- B7, `JMP` at the top of memory: its address word is fetched from 0x0000. -/
theorem test_jmp_at_the_top_of_memory :
    (run [0x8000, 0x1234] (start.setPc 0xFFFE)).map (·.pc) = some 0x1234 := by decide

/-- B7 `CALL 0x0020` at 0x0004. -/
theorem test_call :
    (run [0x9800, 0x0020] (start.setPc 0x0004)).map (fun t => (t.ramWord 0xFFFE, t.sp, t.pc))
      = some (0x0008, 0xFFFE, 0x0020) := by decide

/-- B7 `CALL 0x0020` at 0xFFFC: the return address wraps. -/
theorem test_call_wraps :
    (run [0x9800, 0x0020] ((start.setPc 0xFFFC).setSp 0x8000)).map
      (fun t => (t.ramWord 0x7FFE, t.sp, t.pc)) = some (0x0000, 0x7FFE, 0x0020) := by decide

/-- B7 `RET` at 0x0022. -/
theorem test_ret :
    (run [0x9C00] (((start.setPc 0x0022).setSp 0xFFFE).setRamWord 0xFFFE 0x0008)).map
      (fun t => (t.pc, t.sp)) = some (0x0008, 0x0000) := by decide

/-- B7 `RET` with an empty stack pops the `RET` word itself. -/
theorem test_ret_empty_stack :
    (run [0x9C00] start).map (fun t => (t.pc, t.sp)) = some (0x9C00, 0x0002) := by decide

/-- B8 `PUSH R3`. -/
theorem test_push :
    (run [0xA030] (withRegs start [(.r3, 0x1234)])).map (fun t => (t.byte 0xFFFE, t.byte 0xFFFF, t.sp))
      = some (0x34, 0x12, 0xFFFE) := by decide

/-- B8 `PUSH R3` into the device range. -/
theorem test_push_device :
    (run [0xA030] ((withRegs start [(.r3, 0x1234)]).setSp 0xF100)).map (fun t => (t.io, t.sp))
      = some ([⟨.write, 0xF0FE, 0x1234⟩], 0xF0FE) := by decide

/-- B8 `POP R5`. -/
theorem test_pop :
    (run [0xA680] ((start.setSp 0xFFFE).setRamWord 0xFFFE 0x1234)).map (fun t => (view .r5 t, t.sp))
      = some ((0x1234, 0x000A, 0x0002), 0x0000) := by decide

/-- B8 `POP R1` with an odd `sp`. -/
theorem test_pop_misaligned :
    (run [0xA480] (start.setSp 0x8001)).map (fun t => (t.fault, t.sp, t.pc))
      = some (some (.misalignedAccess 0x8001 .read 0x0000), 0x8001, 0x0000) := by decide

/-- B9 `NOP` at 0x0010. -/
theorem test_nop : (run [0x0000] (start.setPc 0x0010)).map (view .r0)
    = some (0x0000, 0x000A, 0x0012) := by decide

/-- B9 `HALT` at 0x000A. -/
theorem test_halt : (run [0xFC00] (start.setPc 0x000A)).map (fun t => (t.halted, t.pc))
    = some (true, 0x000C) := by decide

/-! ### Fetch faults (B10), the policy `split` (B2), the load (P1), the assembler (A5, R67, R72) -/

/-- B10: pc=0007, pc=F010, pc=F001 (the I/O check comes first). -/
theorem test_fetch_faults :
    (run [] (start.setPc 0x0007)).bind (·.fault) = some (.misalignedAccess 0x0007 .fetch 0x0007)
      ∧ (run [] (start.setPc 0xF010)).bind (·.fault) = some (.fetchFromIO 0xF010 0xF010)
      ∧ (run [] (start.setPc 0xF001)).bind (·.fault) = some (.fetchFromIO 0xF001 0xF001) := by decide

/-- B10: at pc=EFFE the address word of JMP is a device address; an illegal word is found before that. -/
theorem test_fetch_faults_below_devices :
    (run [0x8000] (start.setPc 0xEFFE)).bind (·.fault) = some (.fetchFromIO 0xF000 0xEFFE)
      ∧ (run [0x8001] (start.setPc 0xEFFE)).bind (·.fault)
        = some (.illegalInstruction 0x8001 0xEFFE) := by decide

/-- B2, the last two rows: `STORE` to 0xEFFF and to 0xFFFF under `MISALIGNED_POLICY = split`. -/
theorem test_split_store :
    (match start.memWrite .split 0xEFFF 0x0102 with
      | .error f => some f
      | .ok _ => none) = some (.misalignedAccess 0xEFFF .write 0x0000)
      ∧ (match start.memWrite .split 0xFFFF 0x0102 with
        | .error _ => none
        | .ok t => some (t.byte 0xFFFF, t.byte 0x0000)) = some (0x02, 0x01) := by decide

/-- P1's first four bytes. -/
theorem test_load_image :
    (start.loadImage [0x0400, 0x2401]).map
      (fun t => [t.byte 0, t.byte 1, t.byte 2, t.byte 3]) = some [0x00, 0x04, 0x01, 0x24] := by decide

/-- A5: single lines. -/
theorem test_assemble_lines :
    assemble "MOV R1, R2 ; Copy R2 to R1" = .ok [0x00A0]
      ∧ assemble "STORE R1, 0x8000" = .ok [0x1410, 0x8000]
      ∧ assemble "LOAD R1, [R2+4]" = .ok [0x08A4]
      ∧ assemble "END: HALT" = .ok [0xFC00] := by decide

/-- R68: a forward reference. -/
theorem test_assemble_label : assemble "JMP END\nEND: HALT" = .ok [0x8000, 0x0004, 0xFC00] := by decide

/-- R67, R72: one value in three bases; a value out of range is an error. -/
theorem test_assemble_values :
    assemble "MOVI R0, 42" = .ok [0x042A] ∧ assemble "MOVI R0, 0x2A" = .ok [0x042A]
      ∧ assemble "MOVI R0, 0b00101010" = .ok [0x042A]
      ∧ assemble "MOVI R0, 128" = .error (.outOfRange 128) := by decide

/-! ### Witnesses: the hypotheses of each statement met by a concrete state

Where a statement has several clauses over one address, each clause is met at the ends of its range: RAM at
0xEFFE and 0xF100, devices at 0xF000 and 0xF0FF, odd RAM addresses at 0xEFFF and 0xF101. -/

/-- `start` with its program counter elsewhere and words placed there. -/
def at_ (a : Word) (words : List Word) : State :=
  (start.setPc a).placeBytes a (words.flatMap Word.bytes)

theorem witness_DecodingAnEncodedInstructionGivesItBack :
    Instr.wellFormed (.loadDir .r1 0x1000) = true := by decide

theorem witness_DecodedBytesAreTheEncodingOfTheInstruction :
    decodeBytes [0xA3, 0x20] = .ok (.add .r1 .r2 .r3, [])
      ∧ decodeBytes [0x80, 0x0C, 0x00, 0x10, 0xFF] = .ok (.loadDir .r1 0x1000, [0xFF]) := by decide

theorem witness_WordIsIllegalExactlyWhenUnassignedOrAReservedBitIsSet :
    IllegalWord 0xA800 ∧ IllegalWord 0xF800 ∧ IllegalWord 0xFFFF ∧ ¬ IllegalWord 0xFC00 := by
  simp only [IllegalWord]; decide

theorem witness_OpcodeAloneDecidesTheLength :
    decodeBytes (0xA3 :: 0x20 :: []) = .ok (.add .r1 .r2 .r3, [])
      ∧ decodeBytes (0x00 :: 0x80 :: [0x00, 0x01]) = .ok (.jmp 0x0100, []) := by decide

theorem witness_StepRunsTheDecodedInstruction_one_word :
    let s := at_ 0xEFFE [0x20A3]
    s.Running ∧ IsRamEven s.pc ∧ Instr.words (.add .r1 .r2 .r3) = 1
      ∧ decodeBytes [s.byte s.pc.toNat, s.byte (s.pc + 1).toNat, s.byte (s.pc + 2).toNat,
        s.byte (s.pc + 3).toNat] = .ok (.add .r1 .r2 .r3, [0x00, 0x00]) := by
  simp only [State.Running, IsRamEven]; decide

theorem witness_StepRunsTheDecodedInstruction_two_words :
    let s := at_ 0xFFFE [0x8000, 0x1234]
    s.Running ∧ IsRamEven s.pc ∧ isIO (s.pc + 2) = false
      ∧ decodeBytes [s.byte s.pc.toNat, s.byte (s.pc + 1).toNat, s.byte (s.pc + 2).toNat,
        s.byte (s.pc + 3).toNat] = .ok (.jmp 0x1234, []) := by
  simp only [State.Running, IsRamEven]; decide

theorem witness_FetchFaultsAreFoundInOrder :
    (at_ 0xF000 []).Running ∧ isIO (at_ 0xF000 []).pc = true ∧ isIO (at_ 0xF0FF []).pc = true
      ∧ IsRamOdd (at_ 0xEFFF []).pc ∧ IsRamOdd (at_ 0xF101 []).pc
      ∧ IsRamEven (at_ 0xF100 []).pc := by
  simp only [State.Running, IsRamOdd, IsRamEven]; decide

theorem witness_FetchFaultsAreFoundInOrder_illegal :
    let s := at_ 0xEFFE [0x8001]
    s.Running ∧ IsRamEven s.pc ∧ IllegalWord (s.ramWord s.pc) := by
  simp only [State.Running, IsRamEven, IllegalWord]; decide

theorem witness_FetchFaultsAreFoundInOrder_address_word :
    let s := at_ 0xEFFE [0x8000]
    s.Running ∧ IsRamEven s.pc ∧ decodeFirst (s.ramWord s.pc) = .ok (.direct .jmp)
      ∧ isIO (s.pc + 2) = true := by
  simp only [State.Running, IsRamEven]; decide

/-- The hypotheses of FaultsArePreciseAndTerminal and OnlyTheFourSituationsFault, for each fault. -/
theorem witness_faulting_steps :
    (∃ t, step (at_ 0x0000 [0x1800]) = .next t ∧ t.fault = some (.illegalInstruction 0x1800 0x0000))
      ∧ (∃ t, step (at_ 0xEFFE [0x8000]) = .next t ∧ t.fault = some (.fetchFromIO 0xF000 0xEFFE))
      ∧ (∃ t, step (at_ 0xF0FF []) = .next t ∧ t.fault = some (.fetchFromIO 0xF0FF 0xF0FF))
      ∧ ∃ t, step (at_ 0x0000 [0x3412]) = .next t ∧ t.fault = some (.divideByZero 0x0000) :=
  ⟨⟨_, rfl, rfl⟩, ⟨_, rfl, rfl⟩, ⟨_, rfl, rfl⟩, ⟨_, rfl, rfl⟩⟩

/-- The same for a misaligned access of each kind: a fetch, a LOAD, a POP and a STORE. -/
theorem witness_misaligned_steps :
    (∃ t, step (at_ 0xEFFF []) = .next t ∧ t.fault = some (.misalignedAccess 0xEFFF .fetch 0xEFFF))
      ∧ (∃ t, step (at_ 0x0000 [0x0C80, 0xF101]) = .next t
        ∧ t.fault = some (.misalignedAccess 0xF101 .read 0x0000))
      ∧ (∃ t, step ((at_ 0x0000 [0xA480]).setSp 0xEFFF) = .next t
        ∧ t.fault = some (.misalignedAccess 0xEFFF .read 0x0000))
      ∧ ∃ t, step (at_ 0x0000 [0x1410, 0x8001]) = .next t
        ∧ t.fault = some (.misalignedAccess 0x8001 .write 0x0000) :=
  ⟨⟨_, rfl, rfl⟩, ⟨_, rfl, rfl⟩, ⟨_, rfl, rfl⟩, ⟨_, rfl, rfl⟩⟩

theorem witness_FaultedOrHaltedMachineHasNoStep :
    (start.recordFault (.divideByZero 0)).fault = some (.divideByZero 0)
      ∧ start.halt.fault = none ∧ start.halt.halted = true := by decide

theorem witness_RunningMachineAlwaysSteps : start.Running := ⟨rfl, rfl⟩

theorem witness_StepKeepsTheInvariant : start.Inv ∧ ∃ t, step start = .next t :=
  ⟨⟨by decide, by decide, by decide, by decide⟩, _, rfl⟩

/-- A reset state other than `State.reset`: the flags and a register are any. -/
theorem witness_EveryResetStateMeetsTheInvariant : (start.setReg .r1 0xBEEF).IsReset := by
  simp only [State.IsReset]; decide

theorem witness_OverflowFlagNeverInfluencesExecution :
    let s := at_ 0x0000 [0x20A3]
    let s' := s.setFlags { s.flags with o := false }
    AgreeButO s s' ∧ s.flags.o ≠ s'.flags.o ∧ ∃ t, step s = .next t :=
  ⟨rfl, by decide, _, rfl⟩

theorem witness_OverflowFlagNeverInfluencesExecution_stopped :
    AgreeButO start.halt (start.halt.setFlags { start.flags with o := false })
      ∧ step start.halt = .refused .halted
      ∧ AgreeButO (start.recordFault (.divideByZero 0))
        ((start.recordFault (.divideByZero 0)).setFlags { start.flags with o := false })
      ∧ step (start.recordFault (.divideByZero 0)) = .fault (.divideByZero 0) :=
  ⟨rfl, rfl, rfl, rfl⟩

theorem witness_TraceGrowsByAtMostOneDeviceAccess :
    (∃ t, step start = .next t ∧ t.io = start.io)
      ∧ ∃ t, step (at_ 0x0000 [0x1430, 0xF0FF]) = .next t ∧ t.io = [⟨.write, 0xF0FF, 0x0000⟩] :=
  ⟨⟨_, rfl, rfl⟩, _, rfl, rfl⟩

theorem witness_OnlyTheStoredWordChangesMemory :
    (∃ t, exec (.storeDir .r1 0xEFFE) start = .next t
      ∧ storeAddr (.storeDir .r1 0xEFFE) start = some 0xEFFE)
      ∧ ∃ t, exec (.add .r1 .r2 .r3) start = .next t ∧ storeAddr (.add .r1 .r2 .r3) start = none :=
  ⟨⟨_, rfl, rfl⟩, _, rfl, rfl⟩

theorem witness_OnlyTheDestinationRegisterChanges :
    ∃ t, exec (.add .r1 .r2 .r3) start = .next t ∧ destReg (.add .r1 .r2 .r3) ≠ some .r2 :=
  ⟨_, rfl, by decide⟩

theorem witness_FlagsAreWrittenByTheirClassesOnly :
    (∃ t, exec (.mov .r1 .r2) start = .next t ∧ flagClass (.mov .r1 .r2) = .none)
      ∧ ∃ t, exec (.mul .r1 .r2 .r3) start = .next t ∧ flagClass (.mul .r1 .r2 .r3) = .zn :=
  ⟨⟨_, rfl, rfl⟩, _, rfl, rfl⟩

theorem witness_NonControlInstructionsFallThrough :
    isControl (.loadDir .r1 0x1000) = false ∧ start.fault = none
      ∧ (∃ t, exec (.loadDir .r1 0x1000) start = .next t ∧ t.fault = none)
      ∧ ∃ t, exec (.loadDir .r1 0x1001) start = .next t ∧ t.fault ≠ none :=
  ⟨rfl, rfl, ⟨_, rfl, rfl⟩, _, rfl, by decide⟩

theorem witness_OnlyStackInstructionsUseSp :
    usesStack (.storeDir .r1 0x8000) = false ∧ ∃ t, exec (.storeDir .r1 0x8000) start = .next t :=
  ⟨rfl, _, rfl⟩

theorem witness_OnlyHaltHalts :
    (∃ t, exec .halt start = .next t ∧ t.halted = true)
      ∧ ∃ t, exec .nop start = .next t ∧ t.halted = false :=
  ⟨⟨_, rfl, rfl⟩, _, rfl, rfl⟩

theorem witness_StoredWordIsReadBackAndFetched :
    IsRamEven 0x0000 ∧ IsRamEven 0xEFFE ∧ IsRamEven 0xF100 ∧ IsRamEven 0xFFFE := by
  simp only [IsRamEven]; decide

theorem witness_MisalignedPolicyDecidesOddRamAccesses :
    IsRamOdd 0xEFFF ∧ (IsRamOdd 0xEFFD ∧ (0xEFFD : Word) ≠ 0xEFFF)
      ∧ (IsRamOdd 0xF101 ∧ (0xF101 : Word) ≠ 0xEFFF) ∧ (IsRamOdd 0xFFFF ∧ (0xFFFF : Word) ≠ 0xEFFF)
      ∧ ¬ IsRamOdd 0xEFFE ∧ ¬ IsRamOdd 0xF001 := by
  simp only [IsRamOdd]; decide

theorem witness_DeviceAccessTouchesNoRam : isIO 0xF000 = true ∧ isIO 0xF0FF = true := by decide

theorem witness_CanonicalMemoriesThatReadAlikeAreEqual :
    let m := Memory.write [] 0x8000 0x12
    let m' := Memory.write (Memory.write [] 0x8000 0x34) 0x8000 0x12
    m.wf ∧ m'.wf ∧ ∀ a, m.read a = m'.read a :=
  ⟨by decide, by decide, fun _ => rfl⟩

/-- The longest image that fits, and a short one. -/
theorem witness_LoadPlacesTheImageLittleEndian :
    2 * (List.replicate 0x7800 (0xFC00 : Word)).length ≤ 0xF000
      ∧ 2 * [(0x0400 : Word), 0x2401].length ≤ 0xF000
      ∧ [(0x0400 : Word), 0x2401][1]? = some 0x2401 := by
  rw [List.length_replicate]; decide

theorem witness_ConsoleStoreAppendsTheLowByte :
    (∃ t, exec (.storeDir .r1 0xF000) start = .next t)
      ∧ (∃ t, exec (.storeDir .r1 0xF001) start = .next t)
      ∧ ∃ t, exec (.storeDir .r1 0xEFFE) start = .next t :=
  ⟨⟨_, rfl⟩, ⟨_, rfl⟩, _, rfl⟩

theorem witness_LoadIndirectReadsTheWordAtBasePlusOffset :
    let s := fun v => withRegs start [(.r2, v)]
    IsRamEven ((s 0xEFFA).effAddr .r2 4) ∧ IsRamEven ((s 0xF0FC).effAddr .r2 4)
      ∧ isIO ((s 0xF000).effAddr .r2 0) = true ∧ isIO ((s 0xF0F0).effAddr .r2 15) = true
      ∧ IsRamOdd ((s 0xEFF0).effAddr .r2 15) ∧ IsRamOdd ((s 0xF0FF).effAddr .r2 2) := by
  simp only [IsRamEven, IsRamOdd]; decide

theorem witness_StoreIndirectWritesTheWordAtBasePlusOffset :
    let s := fun v => withRegs start [(.r1, 0x0102), (.r3, v)]
    IsRamEven ((s 0xEFFA).effAddr .r3 4) ∧ IsRamEven ((s 0xF0FC).effAddr .r3 4)
      ∧ isIO ((s 0xF000).effAddr .r3 0) = true ∧ isIO ((s 0xF0F0).effAddr .r3 15) = true
      ∧ IsRamOdd ((s 0xEFF0).effAddr .r3 15) ∧ IsRamOdd ((s 0xF0FF).effAddr .r3 2) := by
  simp only [IsRamEven, IsRamOdd]; decide

/-- The addresses of LoadDirectReadsTheWordAtItsAddress and StoreDirectWritesTheWordAtItsAddress. -/
theorem witness_direct_addresses :
    IsRamEven 0xEFFE ∧ IsRamEven 0xF100 ∧ isIO 0xF000 = true ∧ isIO 0xF0FF = true
      ∧ IsRamOdd 0xEFFF ∧ IsRamOdd 0xF101 := by
  simp only [IsRamEven, IsRamOdd]; decide

theorem witness_DivWritesTheUnsignedQuotientOrFaults :
    (withRegs start [(.r2, 1)]).reg .r2 ≠ 0 ∧ start.reg .r2 = 0 := by decide

/-- A shift amount of 16 and of 65535, for both directions. -/
theorem witness_shift_amounts :
    16 ≤ ((withRegs start [(.r3, 16)]).reg .r3).toNat
      ∧ 16 ≤ ((withRegs start [(.r3, 0xFFFF)]).reg .r3).toNat := by decide

/-- The slots of CallPushesTheReturnAddressAndJumps and PushStoresBelowTheStackPointer; the first two meet the
hypothesis of RetAfterCallComesBack and PopAfterPushCopiesTheRegister. -/
theorem witness_push_slots :
    let s := fun v => start.setSp v
    IsRamEven (s 0xF000).pushAddr ∧ IsRamEven (s 0xF102).pushAddr
      ∧ isIO (s 0xF002).pushAddr = true ∧ isIO (s 0xF101).pushAddr = true
      ∧ IsRamOdd (s 0xF001).pushAddr ∧ IsRamOdd (s 0xF103).pushAddr := by
  simp only [IsRamEven, IsRamOdd]; decide

/-- The slots of RetPopsPc and PopLoadsTheTopOfTheStack. -/
theorem witness_pop_slots :
    let s := fun v => start.setSp v
    IsRamEven (s 0xEFFE).sp ∧ IsRamEven (s 0xF100).sp ∧ isIO (s 0xF000).sp = true
      ∧ isIO (s 0xF0FF).sp = true ∧ IsRamOdd (s 0xEFFF).sp ∧ IsRamOdd (s 0xF101).sp := by
  simp only [IsRamEven, IsRamOdd]; decide

theorem witness_HaltStopsTheMachine : start.Running ∧ ∃ t, exec .halt start = .next t :=
  ⟨⟨rfl, rfl⟩, _, rfl⟩

theorem witness_AssembledLengthIsThePlacedLength :
    (⟨.load, [.reg .r1, .mem .r2 (.num 4)]⟩ : AsmInstr).toInstr [] = .ok (.loadInd .r1 .r2 4)
      ∧ (⟨.load, [.reg .r1, .value (.num 4)]⟩ : AsmInstr).toInstr [] = .ok (.loadDir .r1 4) := by
  decide

/-- Values at both sides of each bound, and one given by a label. -/
theorem witness_ValuesOutsideTheirRangeAreAssemblyErrors :
    ([15, 16, 127, 128, 65535, 65536].all fun n => (AsmValue.num n).resolve [] == .ok n) = true
      ∧ (AsmValue.label "END".toList).resolve [("END".toList, 16)] = .ok 16 := by decide

/-- R72: a 4-bit offset, a 7-bit immediate and an address at both sides of their bounds. -/
theorem test_assemble_bounds :
    assemble "STORE R1, [R2+15]" = .ok [0x111F]
      ∧ assemble "STORE R1, [R2+16]" = .error (.outOfRange 16)
      ∧ assemble "MOVI R7, 127" = .ok [0x07FF] ∧ assemble "CALL 65535" = .ok [0x9800, 0xFFFF]
      ∧ assemble "CALL 65536" = .error (.outOfRange 65536) := by decide

/-- The next state of `withFetchWord` on the reset state is the instruction's (log 16). -/
theorem test_withFetchWord :
    step (State.reset.withFetchWord 32 0x01008000)
      = exec (.jmp 0x0100) (State.reset.withFetchWord 32 0x01008000) := rfl

end Sys2Proof.Tests
end

section
/-! PROOFS. Data movement (40_data_movement.md, R80 to R85): MOV, MOVI, LOAD and STORE. A load or store completes
where its memory access does, so the accesses are described first, each once. -/

namespace Sys2Proof.Machine

/-! ### Operands and encodings -/

theorem toNat_zext4 (imm : BitVec 4) : (zext4 imm).toNat = imm.toNat :=
  BitVec.toNat_setWidth_of_le (by decide)

theorem toNat_zext7 (imm : BitVec 7) : (zext7 imm).toNat = imm.toNat :=
  BitVec.toNat_setWidth_of_le (by decide)

/-- The effective address of R49, as a sum modulo 2^16. -/
theorem State.toNat_effAddr (s : State) (base : Reg) (off : BitVec 4) :
    (s.effAddr base off).toNat = ((s.reg base).toNat + off.toNat) % 65536 := by
  rw [State.effAddr, BitVec.toNat_add, toNat_zext4]

/-- The fields `rs` and `lo4` of a word that uses neither are seven zero bits (R55). -/
theorem asm_rd_only (op : BitVec 6) (rd : BitVec 3) : asm op rd 0 0 = op ++ rd ++ 0#7 :=
  BitVec.append_assoc (x₁ := op ++ rd) (x₂ := 0#3) (x₃ := 0#4)

/-! ### Instructions that only write a register and move on -/

theorem regsKeptBut_setReg (s : State) (rd : Reg) (v : Word) : RegsKeptBut rd s (s.setReg rd v) :=
  fun _ hr => State.reg_setReg_of_ne s v hr

theorem onlyAlu_setReg_advance (s : State) (rd : Reg) (v n : Word) :
    OnlyAlu s ((s.setReg rd v).advance n) where
  sp := rfl
  mem _ := rfl
  run := ⟨rfl, rfl⟩
  io := ⟨rfl, rfl⟩

/-- An instruction that puts `v` in `rd` and moves past its one word completes so, and changes nothing else. -/
theorem completes_of_exec_setReg {s : State} {i : Instr} {rd : Reg} {v : Word}
    (hexec : exec i s = .next ((s.setReg rd v).advance 2)) :
    ∃ t, exec i s = .next t ∧ t.reg rd = v ∧ RegsKeptBut rd s t ∧ t.flags = s.flags
      ∧ t.pc = s.pc + 2 ∧ OnlyAlu s t :=
  ⟨_, hexec, State.reg_setReg_same s rd v, regsKeptBut_setReg s rd v, rfl, rfl,
    onlyAlu_setReg_advance s rd v 2⟩

/-! ### What a memory access does -/

/-- Registers, flags, `sp` and `pc` are as before: what every access to memory or a device leaves alone. -/
structure CpuKept (s t : State) : Prop where
  regs : RegsKept s t
  flags : t.flags = s.flags
  sp : t.sp = s.sp
  pc : t.pc = s.pc

theorem CpuKept.refl (s : State) : CpuKept s s := ⟨fun _ => rfl, rfl, rfl, rfl⟩

theorem cpuKept_deviceRead (s : State) (a : Word) : CpuKept s (s.deviceRead a).2 :=
  ⟨fun _ => rfl, rfl, rfl, rfl⟩

theorem cpuKept_deviceWrite (s : State) (a v : Word) : CpuKept s (s.deviceWrite a v) :=
  ⟨fun _ => rfl, rfl, rfl, rfl⟩

theorem cpuKept_setRamWord (s : State) (a v : Word) : CpuKept s (s.setRamWord a v) :=
  ⟨fun _ => rfl, rfl, rfl, rfl⟩

theorem not_isIO_of_isRamEven {a : Word} (h : IsRamEven a) : ¬ isIO a = true := by
  simp [h.1]

/-- The word read from RAM is the low byte and 256 times the high byte (R35). -/
theorem isWordAt_ramWord (s : State) (a : Word) : IsWordAt s a (s.ramWord a) := by
  have hlow : (s.byte a.toNat).toNat < 2 ^ 8 := (s.byte a.toNat).isLt
  rw [IsWordAt, State.ramWord, Word.ofBytes, BitVec.toNat_append,
    ← Nat.shiftLeft_add_eq_or_of_lt hlow, Nat.shiftLeft_eq]
  omega

/-- The two bytes of a word written to RAM, and every other byte (R36). -/
theorem storedWord_setRamWord (s : State) (a v : Word) : StoredWord a v s (s.setRamWord a v) where
  low := s.byte_setRamWord_lo a v
  high := s.byte_setRamWord_hi a v
  rest _ h0 h1 := s.byte_setRamWord_of_ne a v h0 h1

theorem readsWord_ram (s : State) {a : Word} (h : IsRamEven a) : ReadsWord a (s.ramWord a) s s where
  ram _ := ⟨isWordAt_ramWord s a, rfl, rfl⟩
  device hio := absurd hio (not_isIO_of_isRamEven h)
  mem _ := rfl
  run := ⟨rfl, rfl⟩

theorem readsWord_device (s : State) {a : Word} (h : isIO a = true) :
    ReadsWord a (s.deviceRead a).1 s (s.deviceRead a).2 where
  ram hram := absurd h (not_isIO_of_isRamEven hram)
  device _ := rfl
  mem _ := rfl
  run := ⟨rfl, rfl⟩

theorem writesWord_ram (s : State) {a : Word} (v : Word) (h : IsRamEven a) :
    WritesWord a v s (s.setRamWord a v) where
  ram _ := ⟨storedWord_setRamWord s a v, rfl⟩
  device hio := absurd hio (not_isIO_of_isRamEven h)
  draws := rfl
  run := ⟨rfl, rfl⟩

theorem writesWord_device (s : State) {a : Word} (v : Word) (h : isIO a = true) :
    WritesWord a v s (s.deviceWrite a v) where
  ram hram := absurd h (not_isIO_of_isRamEven hram)
  device _ := ⟨fun _ => rfl, rfl⟩
  draws := rfl
  run := ⟨rfl, rfl⟩

/-- A read is still a read of the same word when a register is written and `pc` moves after it. -/
theorem ReadsWord.setReg_advance {a v : Word} {s t : State} (h : ReadsWord a v s t) (rd : Reg)
    (w n : Word) : ReadsWord a v s ((t.setReg rd w).advance n) :=
  ⟨h.ram, h.device, h.mem, h.run⟩

/-- A write is still a write of the same word when `pc` moves after it. -/
theorem WritesWord.advance {a v : Word} {s t : State} (h : WritesWord a v s t) (n : Word) :
    WritesWord a v s (t.advance n) :=
  ⟨fun hram => (h.ram hram).imp_left fun hw => ⟨hw.low, hw.high, hw.rest⟩, h.device, h.draws, h.run⟩

/-! ### Where `MemRead` and `MemWrite` complete and where they fault (R35 to R38) -/

/-- Under the spec's MISALIGNED_POLICY the misaligned addresses are the odd ones (R37). -/
theorem misaligned_config (a : Word) : misaligned Config.misalignedPolicy a = isOdd a :=
  misaligned_fault a

/-- A read completes at every even RAM address and every device address. -/
theorem State.memRead_completes (s : State) {a : Word} (h : IsRamEven a ∨ isIO a = true) :
    ∃ v t, s.memRead Config.misalignedPolicy a = .ok (v, t) ∧ ReadsWord a v s t ∧ CpuKept s t := by
  obtain ⟨hio, hread⟩ | ⟨hio, hodd, -⟩ | ⟨hio, heven, hread⟩ :=
    s.memRead_cases Config.misalignedPolicy a
  · exact ⟨_, _, hread, readsWord_device s hio, cpuKept_deviceRead s a⟩
  · rw [misaligned_config] at hodd
    simp [IsRamEven, hio, hodd] at h
  · exact ⟨_, _, hread, readsWord_ram s ⟨hio, heven⟩, CpuKept.refl s⟩

theorem State.memRead_misaligned (s : State) {a : Word} (h : IsRamOdd a) :
    s.memRead Config.misalignedPolicy a = .error (.misalignedAccess a .read s.pc) := by
  obtain ⟨hio, hodd⟩ := h
  simp [State.memRead, misaligned_config, hio, hodd]

/-- A write completes at every even RAM address and every device address. -/
theorem State.memWrite_completes (s : State) {a : Word} (v : Word)
    (h : IsRamEven a ∨ isIO a = true) :
    ∃ t, s.memWrite Config.misalignedPolicy a v = .ok t ∧ WritesWord a v s t ∧ CpuKept s t := by
  obtain ⟨hio, hwrite⟩ | ⟨hio, hodd, -⟩ | ⟨hio, heven, hwrite⟩ :=
    s.memWrite_cases Config.misalignedPolicy a v
  · exact ⟨_, hwrite, writesWord_device s v hio, cpuKept_deviceWrite s a v⟩
  · rw [misaligned_config] at hodd
    simp [IsRamEven, hio, hodd] at h
  · exact ⟨_, hwrite, writesWord_ram s v ⟨hio, heven⟩, cpuKept_setRamWord s a v⟩

theorem State.memWrite_misaligned (s : State) {a : Word} (v : Word) (h : IsRamOdd a) :
    s.memWrite Config.misalignedPolicy a v = .error (.misalignedAccess a .write s.pc) := by
  obtain ⟨hio, hodd⟩ := h
  simp [State.memWrite, misaligned_config, hio, hodd]

/-! ### Loads and stores -/

/-- An instruction whose meaning is `loadFrom` is a load (R82, R83). -/
theorem loads_of_exec_loadFrom {s : State} {i : Instr} {ea n : Word} {rd : Reg}
    (hexec : exec i s = s.loadFrom ea rd n) : Loads ea rd n i s := by
  constructor
  · intro hea
    obtain ⟨v, t, hread, hword, hcpu⟩ := s.memRead_completes hea
    refine ⟨(t.setReg rd v).advance n, ?_, ?_, ?_, hcpu.flags, hcpu.sp, ?_⟩
    · rw [hexec, State.loadFrom, hread]
    · simpa using hword.setReg_advance rd v n
    · intro r hr
      simp [hr, hcpu.regs r]
    · simp [hcpu.pc]
  · intro hodd
    rw [Raises, hexec, State.loadFrom, s.memRead_misaligned hodd]
    rfl

/-- An instruction whose meaning is `storeTo` is a store (R84, R85). -/
theorem stores_of_exec_storeTo {s : State} {i : Instr} {ea v n : Word}
    (hexec : exec i s = s.storeTo ea v n) : Stores ea v n i s := by
  constructor
  · intro hea
    obtain ⟨t, hwrite, hword, hcpu⟩ := s.memWrite_completes v hea
    refine ⟨t.advance n, ?_, hword.advance n, hcpu.regs, hcpu.flags, hcpu.sp, ?_⟩
    · rw [hexec, State.storeTo, hwrite]
    · simp [hcpu.pc]
  · intro hodd
    rw [Raises, hexec, State.storeTo, s.memWrite_misaligned v hodd]
    rfl

/-! ### The obligations -/

/-- Settles O32: it holds, by what a load does at each kind of address. -/
theorem loadIndirectReadsTheWordAtBasePlusOffset :
    Obligations.LoadIndirectReadsTheWordAtBasePlusOffset :=
  fun s _ rs off => ⟨rfl, s.toNat_effAddr rs off, loads_of_exec_loadFrom rfl⟩

/-- Settles O33: it holds, by what a load does at each kind of address. -/
theorem loadDirectReadsTheWordAtItsAddress : Obligations.LoadDirectReadsTheWordAtItsAddress := by
  intro s rd addr
  refine ⟨?_, loads_of_exec_loadFrom rfl⟩
  rw [encode, asm_rd_only]
  rfl

/-- Settles O34: it holds, by what a store does at each kind of address. -/
theorem storeIndirectWritesTheWordAtBasePlusOffset :
    Obligations.StoreIndirectWritesTheWordAtBasePlusOffset :=
  fun s _ rd off => ⟨rfl, s.toNat_effAddr rd off, stores_of_exec_storeTo rfl⟩

/-- Settles O35: it holds, by what a store does at each kind of address. -/
theorem storeDirectWritesTheWordAtItsAddress :
    Obligations.StoreDirectWritesTheWordAtItsAddress :=
  fun _ _ _ => ⟨rfl, stores_of_exec_storeTo rfl⟩

/-- Settles O29: it holds for every pair of registers, `rd = rs` among them. -/
theorem movCopiesARegister : Obligations.MovCopiesARegister :=
  fun _ _ _ => ⟨rfl, completes_of_exec_setReg rfl⟩

/-- Settles O31: it holds, since a 7-bit constant keeps its value when it is extended to a word. -/
theorem moviLoadsTheZeroExtendedConstant : Obligations.MoviLoadsTheZeroExtendedConstant := by
  intro s rd imm
  obtain ⟨t, hexec, hreg, hrest⟩ :=
    completes_of_exec_setReg (i := .movi rd imm) (s := s) (v := zext7 imm) rfl
  refine ⟨rfl, t, hexec, ?_, hrest⟩
  rw [hreg, toNat_zext7]

end Sys2Proof.Machine
end

section
/-! PROOFS. Arithmetic (41_arithmetic.md, R90 to R97). The flag functions are described once, of their operands, and
so are the two ways an instruction ends, in class AS and in class ZN; each instruction is then one of these. -/

namespace Sys2Proof.Machine

/-! ### Encodings -/

/-- A word with three registers, its field `lo4` taken apart (R57). -/
theorem asm_rtLo4 (op : BitVec 6) (rd rs : BitVec 3) (rt : Reg) :
    asm op rd rs (rtLo4 rt) = op ++ rd ++ rs ++ 0#1 ++ rt.bits :=
  (BitVec.append_assoc (x₁ := op ++ rd ++ rs) (x₂ := 0#1) (x₃ := rt.bits)).symm

/-! ### Signed overflow (R17) -/

/-- Two's-complement addition overflows exactly where the operands have one sign and the sum the other. -/
theorem signedOverflow_add_iff (a b : Word) :
    (a.msb == b.msb && (a + b).msb != a.msb) = true ↔ SignedOverflow (a.toInt + b.toInt) := by
  have hsigns : (a.msb == b.msb && (a + b).msb != a.msb) = a.saddOverflow b :=
    (BitVec.saddOverflow_eq a b).symm
  rw [hsigns, BitVec.saddOverflow, SignedOverflow, Bool.or_eq_true, decide_eq_true_iff,
    decide_eq_true_iff]
  omega

/-- Two's-complement subtraction overflows exactly where the operands differ in sign and the difference has not
the sign of the first. -/
theorem signedOverflow_sub_iff (a b : Word) :
    (a.msb != b.msb && (a - b).msb != a.msb) = true ↔ SignedOverflow (a.toInt - b.toInt) := by
  have hsigns : (a.msb != b.msb && (a - b).msb != a.msb) = a.ssubOverflow b := by
    rw [BitVec.ssubOverflow_eq]
    cases a.msb <;> cases b.msb <;> simp
  rw [hsigns, BitVec.ssubOverflow, SignedOverflow, Bool.or_eq_true, decide_eq_true_iff,
    decide_eq_true_iff]
  omega

/-! ### The flag functions (R17) -/

/-- `FlagsAdd` with its result written as the sum of words. -/
theorem flagsAdd_eq (a b : Word) :
    flagsAdd a b = (a + b, { z := a + b == 0
                             c := decide (65536 ≤ a.toNat + b.toNat)
                             n := (a + b).msb
                             o := a.msb == b.msb && (a + b).msb != a.msb }) := by
  rw [← flagsAdd_fst]
  rfl

theorem sumFlags_flagsAdd (a b : Word) : SumFlags a b (flagsAdd a b).2 := by
  rw [flagsAdd_eq]
  exact {
    z := by rw [beq_iff_eq, BitVec.toNat_eq, BitVec.toNat_add]; rfl
    c := decide_eq_true_iff
    n := BitVec.msb_eq_getLsbD_last (a + b)
    o := signedOverflow_add_iff a b }

theorem diffFlags_flagsSub (a b : Word) : DiffFlags a b (flagsSub a b).2 where
  z := beq_iff_eq.trans sub_eq_zero
  c := decide_eq_true_iff
  n := BitVec.msb_eq_getLsbD_last (a - b)
  o := signedOverflow_sub_iff a b

theorem resultFlags_zn (r : Word) (f : Flags) : ResultFlags r f { f with z := r == 0, n := r.msb } where
  z := beq_iff_eq
  n := BitVec.msb_eq_getLsbD_last r
  c := rfl
  o := rfl

/-! ### How an instruction that writes a register and flags ends (R18) -/

theorem onlyAlu_setReg_setFlags_advance (s : State) (rd : Reg) (v : Word) (f : Flags) (n : Word) :
    OnlyAlu s (((s.setReg rd v).setFlags f).advance n) where
  sp := rfl
  mem _ := rfl
  run := ⟨rfl, rfl⟩
  io := ⟨rfl, rfl⟩

/-- An instruction that ends in a class-AS write-back completes so, with the flags that it writes. -/
theorem completesAS_of_exec_finishAS {s : State} {i : Instr} {rd : Reg} {p : Word × Flags}
    {P : Flags → Prop} (hexec : exec i s = s.finishAS rd p) (hflags : P p.2) :
    CompletesAS rd p.1 P i s :=
  ⟨_, hexec, State.reg_setReg_same s rd p.1, regsKeptBut_setReg s rd p.1, hflags, rfl,
    onlyAlu_setReg_setFlags_advance s rd p.1 p.2 2⟩

/-- An instruction that ends in a class-ZN write-back completes so. -/
theorem completesZN_of_exec_finishZN {s : State} {i : Instr} {rd : Reg} {r : Word}
    (hexec : exec i s = s.finishZN Config.coPolicy rd r) : CompletesZN rd r i s :=
  ⟨_, hexec, State.reg_setReg_same s rd r, regsKeptBut_setReg s rd r, resultFlags_zn r s.flags, rfl,
    onlyAlu_setReg_setFlags_advance s rd r _ 2⟩

/-- An instruction that writes back `FlagsAdd(a, b)` adds. -/
theorem completesAS_of_exec_flagsAdd {s : State} {i : Instr} {rd : Reg} {a b : Word}
    (hexec : exec i s = s.finishAS rd (flagsAdd a b)) :
    CompletesAS rd (a + b) (SumFlags a b) i s := by
  rw [← flagsAdd_fst]
  exact completesAS_of_exec_finishAS hexec (sumFlags_flagsAdd a b)

/-- An instruction that writes back `FlagsSub(a, b)` subtracts. -/
theorem completesAS_of_exec_flagsSub {s : State} {i : Instr} {rd : Reg} {a b : Word}
    (hexec : exec i s = s.finishAS rd (flagsSub a b)) :
    CompletesAS rd (a - b) (DiffFlags a b) i s :=
  completesAS_of_exec_finishAS hexec (diffFlags_flagsSub a b)

/-! ### Multiplication and division (R94, R95) -/

theorem exec_mul (rd rs rt : Reg) (s : State) :
    exec (.mul rd rs rt) s = s.finishZN Config.coPolicy rd (s.reg rs * s.reg rt) := by
  have hlow : BitVec.ofNat 16 ((s.reg rs).toNat * (s.reg rt).toNat) = s.reg rs * s.reg rt := by
    simp [BitVec.ofNat_mul]
  rw [← hlow]
  rfl

theorem exec_div_of_ne_zero (rd rs : Reg) {rt : Reg} {s : State} (h : s.reg rt ≠ 0) :
    exec (.div rd rs rt) s = s.finishZN Config.coPolicy rd (s.reg rs / s.reg rt) := by
  rw [BitVec.udiv_def]
  exact if_neg h

theorem raises_div_of_zero (rd rs : Reg) {rt : Reg} {s : State} (h : s.reg rt = 0) :
    Raises (.divideByZero s.pc) (.div rd rs rt) s :=
  if_pos h

/-! ### The obligations -/

/-- Settles O36: it holds, by the flags of a sum. -/
theorem addWritesTheSumAndItsFlags : Obligations.AddWritesTheSumAndItsFlags :=
  fun _ _ _ _ => ⟨congrArg ([·]) (asm_rtLo4 ..), completesAS_of_exec_flagsAdd rfl⟩

/-- Settles O37: it holds, by the flags of a sum. -/
theorem addiWritesTheSumAndItsFlags : Obligations.AddiWritesTheSumAndItsFlags :=
  fun _ _ _ _ => ⟨rfl, completesAS_of_exec_flagsAdd rfl⟩

/-- Settles O38: it holds, by the flags of a difference. -/
theorem subWritesTheDifferenceAndItsFlags : Obligations.SubWritesTheDifferenceAndItsFlags :=
  fun _ _ _ _ => ⟨congrArg ([·]) (asm_rtLo4 ..), completesAS_of_exec_flagsSub rfl⟩

/-- Settles O39: it holds, by the flags of a difference. -/
theorem subiWritesTheDifferenceAndItsFlags : Obligations.SubiWritesTheDifferenceAndItsFlags :=
  fun _ _ _ _ => ⟨rfl, completesAS_of_exec_flagsSub rfl⟩

/-- Settles O40: it holds, since the low half of the product is the product of words. -/
theorem mulWritesTheLowHalfOfTheProduct : Obligations.MulWritesTheLowHalfOfTheProduct :=
  fun s rd rs rt => ⟨congrArg ([·]) (asm_rtLo4 ..),
    completesZN_of_exec_finishZN (exec_mul rd rs rt s)⟩

/-- Settles O41: it holds, by the two cases of the divisor. -/
theorem divWritesTheUnsignedQuotientOrFaults : Obligations.DivWritesTheUnsignedQuotientOrFaults := by
  intro s rd rs rt
  refine ⟨congrArg ([·]) (asm_rtLo4 ..), fun hne => ?_, raises_div_of_zero rd rs⟩
  exact ⟨completesZN_of_exec_finishZN (exec_div_of_ne_zero rd rs hne), BitVec.toNat_udiv⟩

/-- Settles O42: it holds, since INC and DEC are ADDI and SUBI with the constant 1. -/
theorem incAndDecAddAndSubtractOne : Obligations.IncAndDecAddAndSubtractOne :=
  fun _ _ => ⟨congrArg ([·]) (asm_rd_only ..), congrArg ([·]) (asm_rd_only ..),
    completesAS_of_exec_flagsAdd rfl, completesAS_of_exec_flagsSub rfl, rfl, rfl⟩

end Sys2Proof.Machine
end

section
/-! PROOFS. Logical instructions (42_logical.md, R105 to R110). Each ends in a class-ZN write-back of its bitwise
result; only NOT writes that result in a form of its own. -/

namespace Sys2Proof.Machine

/-- NOT with its result written as the specification writes it, `0xFFFF - x[rs]` (R110). -/
theorem exec_not (rd rs : Reg) (s : State) :
    exec (.not rd rs) s = s.finishZN Config.coPolicy rd (0xFFFF - s.reg rs) := by
  have hcomplement : 0xFFFF - s.reg rs = ~~~s.reg rs := BitVec.allOnes_sub_eq_not (s.reg rs)
  rw [hcomplement]
  rfl

/-- Settles O44: it holds, since all six end in a class-ZN write-back. -/
theorem logicalInstructionsWriteTheBitwiseResult :
    Obligations.LogicalInstructionsWriteTheBitwiseResult := by
  intro s rd rs rt imm
  refine ⟨?and_word, rfl, ?or_word, rfl, ?xor_word, rfl, ?and, ?andi, ?or, ?ori, ?xor, ?not⟩
  case and_word | or_word | xor_word => exact congrArg ([·]) (asm_rtLo4 ..)
  case and | andi | or | ori | xor => exact completesZN_of_exec_finishZN rfl
  case not => exact completesZN_of_exec_finishZN (exec_not rd rs s)

end Sys2Proof.Machine
end

section
/-! PROOFS. Shifts (43_shift.md, R115 to R119). Each ends in a class-ZN write-back of `shiftLeft` or `shiftRight`,
which are the shifts of words for every amount, unmasked; the clause for amounts of 16 and more is the general one
with the result rewritten to 0. -/

namespace Sys2Proof.Machine

/-! ### How a shift completes -/

/-- An instruction that writes back `shiftLeft a n` completes with the word `a` shifted left. -/
theorem completesZN_of_exec_shiftLeft {s : State} {i : Instr} {rd : Reg} {a : Word} {n : Nat}
    (hexec : exec i s = s.finishZN Config.coPolicy rd (shiftLeft a n)) :
    CompletesZN rd (a <<< n) i s := by
  rw [← shiftLeft_eq]
  exact completesZN_of_exec_finishZN hexec

/-- An instruction that writes back `shiftRight a n` completes with the word `a` shifted right. -/
theorem completesZN_of_exec_shiftRight {s : State} {i : Instr} {rd : Reg} {a : Word} {n : Nat}
    (hexec : exec i s = s.finishZN Config.coPolicy rd (shiftRight a n)) :
    CompletesZN rd (a >>> n) i s := by
  rw [← shiftRight_eq]
  exact completesZN_of_exec_finishZN hexec

/-! ### The obligations -/

/-- Settles O45: it holds, since a left shift of a word by its width or more is 0. -/
theorem leftShiftsWriteTheTruncatedProduct : Obligations.LeftShiftsWriteTheTruncatedProduct := by
  intro s rd rs rt imm
  have hshl : CompletesZN rd (s.reg rs <<< (s.reg rt).toNat) (.shl rd rs rt) s :=
    completesZN_of_exec_shiftLeft rfl
  refine ⟨congrArg ([·]) (asm_rtLo4 ..), rfl, hshl, completesZN_of_exec_shiftLeft rfl, fun hwidth => ?_⟩
  rwa [BitVec.shiftLeft_eq_zero hwidth] at hshl

/-- Settles O46: it holds, since a logical right shift of a word by its width or more is 0. -/
theorem rightShiftsWriteTheLogicalQuotient : Obligations.RightShiftsWriteTheLogicalQuotient := by
  intro s rd rs rt imm
  have hshr : CompletesZN rd (s.reg rs >>> (s.reg rt).toNat) (.shr rd rs rt) s :=
    completesZN_of_exec_shiftRight rfl
  refine ⟨congrArg ([·]) (asm_rtLo4 ..), rfl, hshr, completesZN_of_exec_shiftRight rfl, fun hwidth => ?_⟩
  rwa [BitVec.ushiftRight_eq_zero hwidth] at hshr

end Sys2Proof.Machine
end

section
/-! PROOFS. Compare (44_compare.md, R125, R126). Both end in the flags of a difference alone, without the register
write-back of SUB and SUBI. -/

namespace Sys2Proof.Machine

/-! ### How a compare completes -/

theorem onlyAlu_setFlags_advance (s : State) (f : Flags) (n : Word) :
    OnlyAlu s ((s.setFlags f).advance n) where
  sp := rfl
  mem _ := rfl
  run := ⟨rfl, rfl⟩
  io := ⟨rfl, rfl⟩

/-- An instruction that writes the flags of `FlagsSub(a, b)` and moves past its one word compares `a` with `b`. -/
theorem compares_of_exec_flagsSub {s : State} {i : Instr} {a b : Word}
    (hexec : exec i s = .next ((s.setFlags (flagsSub a b).2).advance 2)) :
    ∃ t, exec i s = .next t ∧ DiffFlags a b t.flags ∧ RegsKept s t ∧ t.pc = s.pc + 2 ∧ OnlyAlu s t :=
  ⟨_, hexec, diffFlags_flagsSub a b, fun r => State.reg_setFlags s (flagsSub a b).2 r, rfl,
    onlyAlu_setFlags_advance s _ 2⟩

/-! ### The obligation -/

/-- Settles O47: it holds, since CMP and CMPI write the flags of a difference and nothing else. -/
theorem comparesWriteTheFlagsOfTheDifferenceOnly :
    Obligations.ComparesWriteTheFlagsOfTheDifferenceOnly :=
  fun _ _ _ _ => ⟨congrArg ([·]) (asm_rtLo4 ..), rfl, compares_of_exec_flagsSub rfl,
    compares_of_exec_flagsSub rfl⟩

end Sys2Proof.Machine
end

section
/-! PROOFS. Branch, call and return (45_branch.md, R130 to R138). A jump is one write of `pc`, to the target or past
both its words. CALL and RET are one push and one pop with `pc` written after it, so the push and the pop of R15 are
described first, each once. -/

namespace Sys2Proof.Machine

/-! ### Jumps -/

theorem onlyAlu_setPc (s : State) (dest : Word) : OnlyAlu s (s.setPc dest) where
  sp := rfl
  mem _ := rfl
  run := ⟨rfl, rfl⟩
  io := ⟨rfl, rfl⟩

/-- A jump is one write of `pc`: the target where it is taken, else the address after both words (R138). -/
theorem State.jumpIf_eq_setPc (s : State) (taken : Bool) (addr : Word) :
    s.jumpIf taken addr = .next (s.setPc (if taken = true then addr else s.pc + 4)) := by
  cases taken with
  | false => rfl
  | true => rfl

/-- An instruction whose meaning is `jumpIf` jumps by the condition that its bit `taken` stands for. -/
theorem jumpsTo_of_exec_jumpIf {s : State} {i : Instr} {taken : Bool} {addr : Word}
    (hexec : exec i s = s.jumpIf taken addr) :
    JumpsTo (if taken = true then addr else s.pc + 4) i s :=
  ⟨_, hexec.trans (s.jumpIf_eq_setPc taken addr), rfl, fun _ => rfl, rfl, onlyAlu_setPc s _⟩

/-- The same for a jump taken where a flag is clear. -/
theorem jumpsTo_of_exec_jumpIf_not {s : State} {i : Instr} {flag : Bool} {addr : Word}
    (hexec : exec i s = s.jumpIf (!flag) addr) :
    JumpsTo (if flag = false then addr else s.pc + 4) i s := by
  simpa only [Bool.not_eq_true'] using jumpsTo_of_exec_jumpIf hexec

/-! ### The push and the pop (R15) -/

/-- A write is still a write of the same word when `sp` is written after it. -/
theorem WritesWord.setSp {a v : Word} {s t : State} (h : WritesWord a v s t) (p : Word) :
    WritesWord a v s (t.setSp p) :=
  ⟨fun hram => (h.ram hram).imp_left fun hw => ⟨hw.low, hw.high, hw.rest⟩, h.device, h.draws, h.run⟩

/-- A write is still a write of the same word when `pc` is written after it. -/
theorem WritesWord.setPc {a v : Word} {s t : State} (h : WritesWord a v s t) (dest : Word) :
    WritesWord a v s (t.setPc dest) :=
  ⟨fun hram => (h.ram hram).imp_left fun hw => ⟨hw.low, hw.high, hw.rest⟩, h.device, h.draws, h.run⟩

/-- A read is still a read of the same word when `sp` is written after it. -/
theorem ReadsWord.setSp {a v : Word} {s t : State} (h : ReadsWord a v s t) (p : Word) :
    ReadsWord a v s (t.setSp p) :=
  ⟨h.ram, h.device, h.mem, h.run⟩

/-- A read is still a read of the same word when `pc` is written after it. -/
theorem ReadsWord.setPc {a v : Word} {s t : State} (h : ReadsWord a v s t) (dest : Word) :
    ReadsWord a v s (t.setPc dest) :=
  ⟨h.ram, h.device, h.mem, h.run⟩

/-- A push completes at every slot that is an even RAM address or a device address, and moves only `sp`. -/
theorem State.pushWord_completes (s : State) (v : Word)
    (h : IsRamEven s.pushAddr ∨ isIO s.pushAddr = true) :
    ∃ t, s.pushWord Config.misalignedPolicy v = .ok t ∧ WritesWord s.pushAddr v s t
      ∧ t.sp = s.pushAddr ∧ RegsKept s t ∧ t.flags = s.flags ∧ t.pc = s.pc := by
  obtain ⟨t, hwrite, hword, hcpu⟩ := s.memWrite_completes v h
  refine ⟨t.setSp s.pushAddr, ?_, hword.setSp s.pushAddr, rfl, hcpu.regs, hcpu.flags, hcpu.pc⟩
  rw [State.pushWord, hwrite]

theorem State.pushWord_misaligned (s : State) (v : Word) (h : IsRamOdd s.pushAddr) :
    s.pushWord Config.misalignedPolicy v = .error (.misalignedAccess s.pushAddr .write s.pc) := by
  rw [State.pushWord, s.memWrite_misaligned v h]

/-- A pop completes where `sp` is an even RAM address or a device address, and moves only `sp`. -/
theorem State.popWord_completes (s : State) (h : IsRamEven s.sp ∨ isIO s.sp = true) :
    ∃ v t, s.popWord Config.misalignedPolicy = .ok (v, t) ∧ ReadsWord s.sp v s t
      ∧ t.sp = s.sp + 2 ∧ RegsKept s t ∧ t.flags = s.flags ∧ t.pc = s.pc := by
  obtain ⟨v, t, hread, hword, hcpu⟩ := s.memRead_completes h
  refine ⟨v, t.setSp (s.sp + 2), ?_, hword.setSp (s.sp + 2), rfl, hcpu.regs, hcpu.flags, hcpu.pc⟩
  rw [State.popWord, hread]

theorem State.popWord_misaligned (s : State) (h : IsRamOdd s.sp) :
    s.popWord Config.misalignedPolicy = .error (.misalignedAccess s.sp .read s.pc) := by
  rw [State.popWord, s.memRead_misaligned h]

/-! ### What CALL and RET make of it (R136, R137) -/

theorem exec_call_of_pushWord_ok {s t : State} (addr : Word)
    (h : s.pushWord Config.misalignedPolicy (s.pc + 4) = .ok t) :
    exec (.call addr) s = .next (t.setPc addr) := by
  rw [exec, execCall, h]

theorem raises_call_of_pushWord_error {s : State} {f : Fault} (addr : Word)
    (h : s.pushWord Config.misalignedPolicy (s.pc + 4) = .error f) : Raises f (.call addr) s := by
  rw [Raises, exec, execCall, h]
  rfl

theorem exec_ret_of_popWord_ok {s t : State} {v : Word}
    (h : s.popWord Config.misalignedPolicy = .ok (v, t)) : exec .ret s = .next (t.setPc v) := by
  rw [exec, execRet, h]

theorem raises_ret_of_popWord_error {s : State} {f : Fault}
    (h : s.popWord Config.misalignedPolicy = .error f) : Raises f .ret s := by
  rw [Raises, exec, execRet, h]
  rfl

/-- A CALL is a push of the address after both its words, after which execution goes on at the target. -/
theorem pushes_call (s : State) (addr : Word) : Pushes (s.pc + 4) addr (.call addr) s := by
  constructor
  · intro hslot
    obtain ⟨t, hpush, hword, hsp, hregs, hflags, -⟩ := s.pushWord_completes (s.pc + 4) hslot
    exact ⟨_, exec_call_of_pushWord_ok addr hpush, hword.setPc addr, hsp, hregs, hflags, rfl⟩
  · intro hodd
    exact raises_call_of_pushWord_error addr (s.pushWord_misaligned (s.pc + 4) hodd)

/-! ### The obligations -/

/-- Settles O50: it holds, since CALL is a push of `pc + 4` with `pc` written after it. -/
theorem callPushesTheReturnAddressAndJumps : Obligations.CallPushesTheReturnAddressAndJumps :=
  fun s addr => ⟨rfl, rfl, pushes_call s addr⟩

/-- Settles O51: it holds, since RET is a pop whose word goes to `pc`. -/
theorem retPopsPc : Obligations.RetPopsPc := by
  refine ⟨rfl, fun s => ⟨fun htop => ?_, fun hodd => ?_⟩⟩
  · obtain ⟨v, t, hpop, hword, hsp, hregs, hflags, -⟩ := s.popWord_completes htop
    exact ⟨_, exec_ret_of_popWord_ok hpop, hword.setPc v, hsp, hregs, hflags⟩
  · exact raises_ret_of_popWord_error (s.popWord_misaligned hodd)

/-- Settles O49: it holds, since every jump is `jumpIf` of its condition. -/
theorem jumpsSetPcByTheirCondition : Obligations.JumpsSetPcByTheirCondition := by
  intro s addr
  refine ⟨rfl, rfl, rfl, rfl, rfl, rfl, ?jmp, ?jz, ?jnz, ?jc, ?jnc, ?jn⟩
  case jmp => exact jumpsTo_of_exec_jumpIf (taken := true) rfl
  case jz | jc | jn => exact jumpsTo_of_exec_jumpIf rfl
  case jnz | jnc => exact jumpsTo_of_exec_jumpIf_not rfl

end Sys2Proof.Machine
end

section
/-! PROOFS. Stack (46_stack.md, R145, R146). PUSH is the push of R15 with `pc` moved past one word after it; POP is the
pop, whose word goes to the register. -/

namespace Sys2Proof.Machine

/-! ### What PUSH and POP make of the push and the pop -/

theorem exec_push_of_pushWord_ok {s t : State} {rs : Reg}
    (h : s.pushWord Config.misalignedPolicy (s.reg rs) = .ok t) :
    exec (.push rs) s = .next (t.advance 2) := by
  rw [exec, execPush, h]

theorem raises_push_of_pushWord_error {s : State} {rs : Reg} {f : Fault}
    (h : s.pushWord Config.misalignedPolicy (s.reg rs) = .error f) : Raises f (.push rs) s := by
  rw [Raises, exec, execPush, h]
  rfl

theorem exec_pop_of_popWord_ok {s t : State} {v : Word} (rd : Reg)
    (h : s.popWord Config.misalignedPolicy = .ok (v, t)) :
    exec (.pop rd) s = .next ((t.setReg rd v).advance 2) := by
  rw [exec, execPop, h]

theorem raises_pop_of_popWord_error {s : State} {f : Fault} (rd : Reg)
    (h : s.popWord Config.misalignedPolicy = .error f) : Raises f (.pop rd) s := by
  rw [Raises, exec, execPop, h]
  rfl

/-- A PUSH is a push of a register, after which execution goes on past its one word. -/
theorem pushes_push (s : State) (rs : Reg) : Pushes (s.reg rs) (s.pc + 2) (.push rs) s := by
  constructor
  · intro hslot
    obtain ⟨t, hpush, hword, hsp, hregs, hflags, hpc⟩ := s.pushWord_completes (s.reg rs) hslot
    refine ⟨_, exec_push_of_pushWord_ok hpush, hword.advance 2, hsp, hregs, hflags, ?_⟩
    rw [State.pc_advance, hpc]
  · intro hodd
    exact raises_push_of_pushWord_error (s.pushWord_misaligned (s.reg rs) hodd)

/-! ### The obligations -/

/-- Settles O53: it holds, since PUSH is a push of the register with `pc` moved after it. -/
theorem pushStoresBelowTheStackPointer : Obligations.PushStoresBelowTheStackPointer :=
  fun s rs => ⟨rfl, rfl, pushes_push s rs⟩

/-- Settles O54: it holds, since POP is a pop whose word goes to `rd`. -/
theorem popLoadsTheTopOfTheStack : Obligations.PopLoadsTheTopOfTheStack := by
  intro s rd
  refine ⟨congrArg ([·]) (asm_rd_only ..), fun htop => ?_, fun hodd => ?_⟩
  · obtain ⟨v, t, hpop, hword, hsp, hregs, hflags, hpc⟩ := s.popWord_completes htop
    refine ⟨_, exec_pop_of_popWord_ok rd hpop, ?_, hsp, fun r hr => ?_, hflags, ?_⟩
    · rw [State.reg_advance, State.reg_setReg_same]
      exact hword.setReg_advance rd v 2
    · rw [State.reg_advance, State.reg_setReg_of_ne t v hr, hregs r]
    · rw [State.pc_advance, State.pc_setReg, hpc]
  · exact raises_pop_of_popWord_error rd (s.popWord_misaligned hodd)

end Sys2Proof.Machine
end

section
/-! PROOFS. System (47_system.md, R150, R151): NOP and HALT. NOP is the copy of a register to itself, which every
register admits; the run that HALT ends has no step, since a step is defined in a running state only (R61). -/

namespace Sys2Proof.Machine

/-! ### NOP as a register copied to itself (R150) -/

/-- Writing a register with the value that it holds changes nothing. -/
theorem State.setReg_reg_self (s : State) (r : Reg) : s.setReg r (s.reg r) = s :=
  congrArg (fun regs => { s with regs := regs }) (s.regs.set_get_self r)

/-- A register copied to itself is a NOP, whichever register it is. -/
theorem exec_mov_self (s : State) (r : Reg) : exec (.mov r r) s = exec .nop s := by
  have hcopy : exec (.mov r r) s = .next ((s.setReg r (s.reg r)).advance 2) := rfl
  rw [hcopy, s.setReg_reg_self r]
  rfl

/-! ### The end of a run (R151) -/

theorem exec_halt (s : State) : exec .halt s = .next (s.halt.advance 2) := rfl

/-- HALT ends the run normally where no fault is recorded. -/
theorem normalEnd_of_exec_halt {s t : State} (hfault : s.fault = none) (h : exec .halt s = .next t) :
    t.NormalEnd := by
  rw [exec_halt] at h
  cases h
  exact ⟨by rw [State.halted_advance, State.halted_halt],
    by rw [State.fault_advance, State.fault_halt, hfault]⟩

/-- A step answers a next state only where the machine has not halted (R61). -/
theorem step_ne_next_of_halted {s : State} (h : s.halted = true) (u : State) : step s ≠ .next u := by
  intro hstep
  obtain ⟨-, hrunning, -⟩ := step_next hstep
  exact Bool.false_ne_true (hrunning.symm.trans h)

/-! ### The obligations -/

/-- Settles O30: it holds, since R0 copied to itself is a NOP. -/
theorem nopOnlyMovesPcAndIsMovR0R0 : Obligations.NopOnlyMovesPcAndIsMovR0R0 :=
  ⟨rfl, rfl, fun s => ⟨rfl, exec_mov_self s .r0⟩⟩

/-- Settles O56: it holds, since the state after HALT is a normal end, and a halted state has no step. -/
theorem haltStopsTheMachine : Obligations.HaltStopsTheMachine := by
  refine ⟨rfl, fun s => ⟨rfl, fun t u ⟨hfault, _⟩ hexec => ?_⟩⟩
  have hend : t.NormalEnd := normalEnd_of_exec_halt hfault hexec
  exact ⟨hend, step_ne_next_of_halted hend.1 u⟩

end Sys2Proof.Machine
end

section
/-! PROOFS. Exceptions (60_exceptions.md, R162). An instruction either completes and leaves the fault record as it was,
or raises a fault and changes nothing else. The instructions that access memory do so at one address and are settled
by one split on it, DIV by a split on its divisor; the others always complete. A step adds the faults of the fetch,
which change nothing else either. -/

namespace Sys2Proof.Machine

/-! ### Completing or raising -/

/-- The instruction completes with the fault record as before, or raises a fault that changes nothing else. -/
def CompletesOrRaises (i : Instr) (s : State) : Prop :=
  (∃ t, exec i s = .next t ∧ t.fault = s.fault) ∨ ∃ f, Raises f i s

theorem completesOrRaises_of_exec_next {s t : State} {i : Instr} (hexec : exec i s = .next t)
    (hfault : t.fault = s.fault) : CompletesOrRaises i s :=
  .inl ⟨t, hexec, hfault⟩

theorem JumpsTo.completesOrRaises {s : State} {i : Instr} {dest : Word} (h : JumpsTo dest i s) :
    CompletesOrRaises i s := by
  obtain ⟨t, hexec, -, -, -, honly⟩ := h
  exact completesOrRaises_of_exec_next hexec honly.run.2

/-- A data access is at an even RAM address or a device address, or it is misaligned (R35 to R37). -/
theorem isRamEven_or_isIO_or_isRamOdd (a : Word) : (IsRamEven a ∨ isIO a = true) ∨ IsRamOdd a := by
  simp only [IsRamEven, IsRamOdd]
  cases isIO a <;> cases isOdd a <;> decide

/-- An instruction that completes wherever its one access does, and raises a fault where that is misaligned. -/
theorem completesOrRaises_of_access {s : State} {i : Instr} {ea : Word} {f : Fault}
    (hok : IsRamEven ea ∨ isIO ea = true → ∃ t, exec i s = .next t ∧ RunKept s t)
    (hodd : IsRamOdd ea → Raises f i s) : CompletesOrRaises i s := by
  rcases isRamEven_or_isIO_or_isRamOdd ea with hea | hea
  · obtain ⟨t, hexec, hrun⟩ := hok hea
    exact completesOrRaises_of_exec_next hexec hrun.2
  · exact .inr ⟨f, hodd hea⟩

theorem Loads.completesOrRaises {s : State} {i : Instr} {ea n : Word} {rd : Reg}
    (h : Loads ea rd n i s) : CompletesOrRaises i s :=
  completesOrRaises_of_access
    (fun hea => (h.1 hea).imp fun _ ⟨hexec, hword, _⟩ => ⟨hexec, hword.run⟩) h.2

theorem Stores.completesOrRaises {s : State} {i : Instr} {ea v n : Word}
    (h : Stores ea v n i s) : CompletesOrRaises i s :=
  completesOrRaises_of_access
    (fun hea => (h.1 hea).imp fun _ ⟨hexec, hword, _⟩ => ⟨hexec, hword.run⟩) h.2

theorem Pushes.completesOrRaises {s : State} {i : Instr} {v dest : Word}
    (h : Pushes v dest i s) : CompletesOrRaises i s :=
  completesOrRaises_of_access
    (fun hslot => (h.1 hslot).imp fun _ ⟨hexec, hword, _⟩ => ⟨hexec, hword.run⟩) h.2

theorem completesOrRaises_ret (s : State) : CompletesOrRaises .ret s := by
  obtain ⟨hok, hodd⟩ := retPopsPc.2 s
  exact completesOrRaises_of_access
    (fun htop => (hok htop).imp fun _ ⟨hexec, hword, _⟩ => ⟨hexec, hword.run⟩) hodd

theorem completesOrRaises_pop (rd : Reg) (s : State) : CompletesOrRaises (.pop rd) s := by
  obtain ⟨-, hok, hodd⟩ := popLoadsTheTopOfTheStack s rd
  exact completesOrRaises_of_access
    (fun htop => (hok htop).imp fun _ ⟨hexec, hword, _⟩ => ⟨hexec, hword.run⟩) hodd

theorem completesOrRaises_div (rd rs rt : Reg) (s : State) : CompletesOrRaises (.div rd rs rt) s := by
  by_cases hzero : s.reg rt = 0
  · exact .inr ⟨_, raises_div_of_zero rd rs hzero⟩
  · exact completesOrRaises_of_exec_next (exec_div_of_ne_zero rd rs hzero) rfl

/-- Every instruction, in every state, completes or raises (R162). -/
theorem exec_completesOrRaises (i : Instr) (s : State) : CompletesOrRaises i s := by
  cases i
  case loadInd | loadDir => exact (loads_of_exec_loadFrom rfl).completesOrRaises
  case storeInd | storeDir => exact (stores_of_exec_storeTo rfl).completesOrRaises
  case call addr => exact (pushes_call s addr).completesOrRaises
  case push rs => exact (pushes_push s rs).completesOrRaises
  case ret => exact completesOrRaises_ret s
  case pop rd => exact completesOrRaises_pop rd s
  case div rd rs rt => exact completesOrRaises_div rd rs rt s
  case jmp | jz | jnz | jc | jnc | jn => exact (jumpsTo_of_exec_jumpIf rfl).completesOrRaises
  case mov | movi | nop | halt | cmp | cmpi => exact completesOrRaises_of_exec_next rfl rfl
  case add | addi | sub | subi | inc | dec =>
    exact completesOrRaises_of_exec_next (State.finishAS_eq ..) rfl
  case mul | and | andi | or | ori | xor | not | shl | shli | shr | shri =>
    exact completesOrRaises_of_exec_next (State.finishZN_eq ..) rfl

/-! ### The step -/

/-- A step that answers a state with a fault recorded changed the fault record alone: a fault of the fetch or of the
instruction, since the state it began in had none (R61, R162). -/
theorem eq_recordFault_of_step {s t : State} {f : Fault} (hstep : step s = .next t)
    (hfault : t.fault = some f) : t = s.recordFault f := by
  obtain ⟨hnone, -, ⟨g, -, rfl⟩ | ⟨i, -, hexec⟩⟩ := step_next hstep
  · rw [State.fault_recordFault] at hfault
    rw [Option.some.inj hfault]
  · rcases exec_completesOrRaises i s with ⟨u, hnext, hkept⟩ | ⟨g, hraises⟩
    · cases hexec.symm.trans hnext
      rw [hkept, hnone] at hfault
      cases hfault
    · cases hexec.symm.trans hraises
      cases hfault
      rfl

/-- A step answers a next state only where no fault is recorded (R61). -/
theorem step_ne_next_of_fault {s : State} {f : Fault} (h : s.fault = some f) (u : State) :
    step s ≠ .next u := by
  intro hstep
  obtain ⟨hnone, -⟩ := step_next hstep
  exact Option.some_ne_none f (h.symm.trans hnone)

theorem not_normalEnd_of_fault {s : State} {f : Fault} (h : s.fault = some f) : ¬ s.NormalEnd :=
  fun ⟨_, hnone⟩ => Option.some_ne_none f (h.symm.trans hnone)

/-! ### The obligation -/

/-- Settles O8: it holds, since the fetch and every instruction raise a fault by changing the fault record alone. -/
theorem faultsArePreciseAndTerminal : Obligations.FaultsArePreciseAndTerminal :=
  fun _ _ _ hstep hfault => ⟨eq_recordFault_of_step hstep hfault, not_normalEnd_of_fault hfault,
    step_ne_next_of_fault hfault⟩

end Sys2Proof.Machine
end

section
/-! PROOFS. Encoding and decoding (30_encoding.md, R50 to R64). Every row of the opcode map but the one of NOP says the
same thing: the word has the row's opcode, and its must-be-zero bits are zero (`row_matches_iff`). So a word other than
0x0000 decodes by the row of its opcode. Encoding then decodes by a look at the must-be-zero bits of the encoded word,
and decoding encodes by putting the word together from its fields. -/

namespace Sys2Proof

/-! ### Words and their fields (R50) -/

/-- Two words with the same four fields are equal. -/
theorem word_ext_fields {v w : Word} (hop : opField v = opField w)
    (hrd : v.extractLsb' 7 3 = w.extractLsb' 7 3) (hrs : v.extractLsb' 4 3 = w.extractLsb' 4 3)
    (hlo : v.extractLsb' 0 4 = w.extractLsb' 0 4) : v = w := by
  have bit {s n k : Nat} (h : v.extractLsb' s n = w.extractLsb' s n) (h0 : s ≤ k) (h1 : k - s < n) :
      v.getLsbD k = w.getLsbD k := by
    simpa [h1, Nat.add_sub_cancel' h0] using congrArg (fun x => x.getLsbD (k - s)) h
  apply BitVec.eq_of_getLsbD_eq
  intro k hk
  by_cases h4 : k < 4
  · exact bit hlo (by omega) (by omega)
  by_cases h7 : k < 7
  · exact bit hrs (by omega) (by omega)
  by_cases h10 : k < 10
  · exact bit hrd (by omega) (by omega)
  · exact bit hop (by omega) (by omega)

@[simp] theorem opField_asm (op : BitVec 6) (rd rs : BitVec 3) (lo4 : BitVec 4) :
    opField (asm op rd rs lo4) = op := Laws.EncodeShape.opField_asm ..

@[simp] theorem rdBits_asm (op : BitVec 6) (rd rs : BitVec 3) (lo4 : BitVec 4) :
    (asm op rd rs lo4).extractLsb' 7 3 = rd := by
  apply BitVec.eq_of_getLsbD_eq
  intro k hk
  simp only [asm, BitVec.getLsbD_extractLsb', BitVec.getLsbD_append, hk, show ¬ 7 + k < 4 by omega,
    show ¬ 7 + k - 4 < 3 by omega, show 7 + k - 4 - 3 = k by omega]
  simp

@[simp] theorem rsBits_asm (op : BitVec 6) (rd rs : BitVec 3) (lo4 : BitVec 4) :
    (asm op rd rs lo4).extractLsb' 4 3 = rs := by
  apply BitVec.eq_of_getLsbD_eq
  intro k hk
  simp only [asm, BitVec.getLsbD_extractLsb', BitVec.getLsbD_append, hk, show ¬ 4 + k < 4 by omega,
    show 4 + k - 4 = k by omega]
  simp

@[simp] theorem imm4Field_asm (op : BitVec 6) (rd rs : BitVec 3) (lo4 : BitVec 4) :
    imm4Field (asm op rd rs lo4) = lo4 := by
  apply BitVec.eq_of_getLsbD_eq
  intro k hk
  simp only [imm4Field, asm, BitVec.getLsbD_extractLsb', BitVec.getLsbD_append, hk, Nat.zero_add]
  simp

@[simp] theorem rdField_asm (op : BitVec 6) (rd : Reg) (rs : BitVec 3) (lo4 : BitVec 4) :
    rdField (asm op rd.bits rs lo4) = rd := by rw [rdField, rdBits_asm, Reg.ofBits_bits]

@[simp] theorem rsField_asm (op : BitVec 6) (rd : BitVec 3) (rs : Reg) (lo4 : BitVec 4) :
    rsField (asm op rd rs.bits lo4) = rs := by rw [rsField, rsBits_asm, Reg.ofBits_bits]

/-- The field `rt` is the field `lo4` without its bit 3 (R57). -/
theorem extract_rt (w : Word) : w.extractLsb' 0 3 = (imm4Field w).extractLsb' 0 3 :=
  (BitVec.extractLsb'_extractLsb'_of_le (by decide)).symm

theorem rtLo4_ofBits (lo4 : BitVec 4) (h : lo4 &&& 8 = 0) :
    rtLo4 (Reg.ofBits (lo4.extractLsb' 0 3)) = lo4 := by
  revert lo4; decide

@[simp] theorem ofBits_rtLo4 (rt : Reg) : Reg.ofBits ((rtLo4 rt).extractLsb' 0 3) = rt := by
  cases rt <;> rfl

theorem rtLo4_and_eight (rt : Reg) : rtLo4 rt &&& 8#4 = 0#4 := by cases rt <;> rfl

@[simp] theorem rtField_asm (op : BitVec 6) (rd rs : BitVec 3) (rt : Reg) :
    rtField (asm op rd rs (rtLo4 rt)) = rt := by
  rw [rtField, extract_rt, imm4Field_asm, ofBits_rtLo4]

/-- The word that the fields of a word make is that word. -/
theorem asm_fields (w : Word) :
    asm (opField w) (rdField w).bits (rsField w).bits (imm4Field w) = w := by
  apply word_ext_fields
  · rw [opField_asm]
  · rw [rdBits_asm, rdField, Reg.bits_ofBits]
  · rw [rsBits_asm, rsField, Reg.bits_ofBits]
  · exact imm4Field_asm ..

/-- A mask tests the fields of a word apart. -/
theorem asm_and_eq_zero_iff (op : BitVec 6) (rd rs : BitVec 3) (lo4 : BitVec 4) (mask : Word) :
    asm op rd rs lo4 &&& mask = 0 ↔ op &&& opField mask = 0 ∧ rd &&& mask.extractLsb' 7 3 = 0
      ∧ rs &&& mask.extractLsb' 4 3 = 0 ∧ lo4 &&& imm4Field mask = 0 := by
  have hop : opField (asm op rd rs lo4 &&& mask) = op &&& opField mask := by
    rw [opField, BitVec.extractLsb'_and, ← opField, opField_asm, ← opField]
  have hrd : (asm op rd rs lo4 &&& mask).extractLsb' 7 3 = rd &&& mask.extractLsb' 7 3 := by
    rw [BitVec.extractLsb'_and, rdBits_asm]
  have hrs : (asm op rd rs lo4 &&& mask).extractLsb' 4 3 = rs &&& mask.extractLsb' 4 3 := by
    rw [BitVec.extractLsb'_and, rsBits_asm]
  have hlo : imm4Field (asm op rd rs lo4 &&& mask) = lo4 &&& imm4Field mask := by
    rw [imm4Field, BitVec.extractLsb'_and, ← imm4Field, imm4Field_asm, ← imm4Field]
  rw [← hop, ← hrd, ← hrs, ← hlo]
  constructor
  · intro h
    rw [h]
    exact ⟨rfl, rfl, rfl, rfl⟩
  · rintro ⟨h0, h1, h2, h3⟩
    exact word_ext_fields h0 h1 h2 h3

/-- A field that a mask tests whole, and finds zero. -/
theorem eq_zero_of_and_allOnes {n : Nat} {x : BitVec n} (h : x &&& BitVec.allOnes n = 0) : x = 0 :=
  BitVec.and_allOnes.symm.trans h

/-! ### The must-be-zero bits of each layout, in words that are put together (R54, R55)

The layouts are named as R54 names their classes; `r1d` stands for R1D and DL, `r1s` for R1S and DS, `imp` for IMP and
DJ, `ri` for RI and MI. -/

section
variable (op : BitVec 6) (rd rs : BitVec 3) (rt : Reg) (lo4 : BitVec 4)

theorem asm_r3_legal : asm op rd rs (rtLo4 rt) &&& 0x0008 = 0 :=
  (asm_and_eq_zero_iff ..).2 ⟨BitVec.and_zero, BitVec.and_zero, BitVec.and_zero, rtLo4_and_eight rt⟩

theorem asm_r2_legal : asm op rd rs 0 &&& 0x000F = 0 :=
  (asm_and_eq_zero_iff ..).2 ⟨BitVec.and_zero, BitVec.and_zero, BitVec.and_zero, rfl⟩

theorem asm_r1d_legal : asm op rd 0 0 &&& 0x007F = 0 :=
  (asm_and_eq_zero_iff ..).2 ⟨BitVec.and_zero, BitVec.and_zero, rfl, rfl⟩

theorem asm_r1s_legal : asm op 0 rs 0 &&& 0x038F = 0 :=
  (asm_and_eq_zero_iff ..).2 ⟨BitVec.and_zero, rfl, BitVec.and_zero, rfl⟩

theorem asm_rc_legal : asm op 0 rs (rtLo4 rt) &&& 0x0388 = 0 :=
  (asm_and_eq_zero_iff ..).2 ⟨BitVec.and_zero, rfl, BitVec.and_zero, rtLo4_and_eight rt⟩

theorem asm_ci_legal : asm op 0 rs lo4 &&& 0x0380 = 0 :=
  (asm_and_eq_zero_iff ..).2 ⟨BitVec.and_zero, rfl, BitVec.and_zero, BitVec.and_zero⟩

theorem asm_imp_legal : asm op 0 0 0 &&& 0x03FF = 0 :=
  (asm_and_eq_zero_iff ..).2 ⟨BitVec.and_zero, rfl, rfl, rfl⟩

end

/-! ### A word of each layout whose must-be-zero bits are zero is made of the layout's operands (R50 to R57) -/

section
variable {w : Word} {op : BitVec 6}

/-- What the must-be-zero bits in `mask` say of the four fields of a word. -/
theorem fields_and_eq_zero {mask : Word} (h : w &&& mask = 0) :
    (rdField w).bits &&& mask.extractLsb' 7 3 = 0 ∧ (rsField w).bits &&& mask.extractLsb' 4 3 = 0
      ∧ imm4Field w &&& imm4Field mask = 0 := by
  rw [← asm_fields w, asm_and_eq_zero_iff] at h
  exact h.2

theorem eq_asm_ri (hop : opField w = op) :
    asm op (rdField w).bits (rsField w).bits (imm4Field w) = w := by
  rw [← hop, asm_fields]

theorem eq_asm_r3 (hop : opField w = op) (h : w &&& 0x0008 = 0) :
    asm op (rdField w).bits (rsField w).bits (rtLo4 (rtField w)) = w := by
  obtain ⟨-, -, hlo⟩ := fields_and_eq_zero h
  rw [rtField, extract_rt, rtLo4_ofBits _ hlo, eq_asm_ri hop]

theorem eq_asm_r2 (hop : opField w = op) (h : w &&& 0x000F = 0) :
    asm op (rdField w).bits (rsField w).bits 0 = w := by
  obtain ⟨-, -, hlo⟩ := fields_and_eq_zero h
  rw [← eq_zero_of_and_allOnes hlo, eq_asm_ri hop]

theorem eq_asm_r1d (hop : opField w = op) (h : w &&& 0x007F = 0) :
    asm op (rdField w).bits 0 0 = w := by
  obtain ⟨-, hrs, hlo⟩ := fields_and_eq_zero h
  conv_rhs => rw [← eq_asm_ri hop, eq_zero_of_and_allOnes hrs, eq_zero_of_and_allOnes hlo]

theorem eq_asm_r1s (hop : opField w = op) (h : w &&& 0x038F = 0) :
    asm op 0 (rsField w).bits 0 = w := by
  obtain ⟨hrd, -, hlo⟩ := fields_and_eq_zero h
  conv_rhs => rw [← eq_asm_ri hop, eq_zero_of_and_allOnes hrd, eq_zero_of_and_allOnes hlo]

theorem eq_asm_rc (hop : opField w = op) (h : w &&& 0x0388 = 0) :
    asm op 0 (rsField w).bits (rtLo4 (rtField w)) = w := by
  obtain ⟨hrd, -, hlo⟩ := fields_and_eq_zero h
  rw [rtField, extract_rt, rtLo4_ofBits _ hlo]
  conv_rhs => rw [← eq_asm_ri hop, eq_zero_of_and_allOnes hrd]

theorem eq_asm_ci (hop : opField w = op) (h : w &&& 0x0380 = 0) :
    asm op 0 (rsField w).bits (imm4Field w) = w := by
  obtain ⟨hrd, -, -⟩ := fields_and_eq_zero h
  conv_rhs => rw [← eq_asm_ri hop, eq_zero_of_and_allOnes hrd]

/-- The layout of MOVI, its constant in the place of `rs` and `lo4` (R51). -/
theorem eq_movi_word (hop : opField w = op) : op ++ (rdField w).bits ++ imm7Field w = w := by
  subst hop
  rw [rdField, Reg.bits_ofBits]
  apply BitVec.eq_of_getLsbD_eq
  intro k hk
  simp only [opField, imm7Field, BitVec.getLsbD_append, BitVec.getLsbD_extractLsb']
  by_cases h7 : k < 7
  · simp [h7]
  by_cases h10 : k < 10
  · simp [h7, show k - 7 < 3 by omega, show 7 + (k - 7) = k by omega]
  · simp [h7, show ¬ k - 7 < 3 by omega, show k - 7 - 3 < 6 by omega, show 10 + (k - 7 - 3) = k by omega]

theorem eq_asm_imp (hop : opField w = op) (h : w &&& 0x03FF = 0) : asm op 0 0 0 = w := by
  obtain ⟨hrd, hrs, hlo⟩ := fields_and_eq_zero h
  conv_rhs =>
    rw [← eq_asm_ri hop, eq_zero_of_and_allOnes hrd, eq_zero_of_and_allOnes hrs, eq_zero_of_and_allOnes hlo]

end

/-! ### The row of an opcode (R58) -/

open Machine (mustBeZero unassignedOpcode IllegalWord)

/-- The row of the opcode map with this opcode; the row of NOP, which shares the opcode of MOV, is left out. -/
def opcodeRow (op : BitVec 6) : Option OpcodeRow :=
  opcodeTable.tail.find? (fun row => opField row.bits == op)

/-- Each row but that of NOP tests the opcode and the must-be-zero bits of its layout, and nothing else (R54). -/
theorem row_mask_and_bits : ∀ row ∈ opcodeTable.tail, opField row.mask = BitVec.allOnes 6
    ∧ row.mask.extractLsb' 0 10 = (mustBeZero (opField row.bits)).extractLsb' 0 10
    ∧ row.bits.extractLsb' 0 10 = 0 := by decide

theorem opField_mustBeZero : ∀ op, opField (mustBeZero op) = 0#6 := by decide

theorem unassignedOpcode_eq : ∀ op, unassignedOpcode op = (opcodeRow op).isNone := by decide

theorem row_matches_iff {row : OpcodeRow} (hrow : row ∈ opcodeTable.tail) (w : Word) :
    w &&& row.mask = row.bits ↔ opField w = opField row.bits ∧ w &&& mustBeZero (opField w) = 0 := by
  obtain ⟨hop, hmask, hbits⟩ := row_mask_and_bits row hrow
  have hw := row_matches_append (opField w) (w.extractLsb' 0 10) row.mask row.bits
  have hz := row_matches_append (opField w) (w.extractLsb' 0 10) (mustBeZero (opField w)) 0
  rw [← word_eq_append, Bool.eq_iff_iff, Bool.and_eq_true] at hw hz
  simp only [beq_iff_eq] at hw hz
  rw [hop, BitVec.and_allOnes, hmask, hbits] at hw
  rw [opField_mustBeZero, BitVec.and_zero] at hz
  rw [hw, hz]
  constructor
  · rintro ⟨h1, h2⟩
    exact ⟨h1, rfl, by rw [h1]; exact h2⟩
  · rintro ⟨h1, -, h2⟩
    exact ⟨h1, by rw [← h1]; exact h2⟩

/-- The row of NOP matches the word 0x0000 only (R75). -/
theorem find_row_of_ne_zero {w : Word} (hne : w ≠ 0) :
    opcodeTable.find? (fun row => w &&& row.mask == row.bits)
      = opcodeTable.tail.find? (fun row => w &&& row.mask == row.bits) := by
  refine List.find?_cons_of_neg fun h => hne ?_
  exact BitVec.and_allOnes.symm.trans (beq_iff_eq.1 h)

/-- A word other than 0x0000 whose must-be-zero bits are zero matches the row of its opcode. -/
theorem find_row_of_legal {w : Word} (hne : w ≠ 0) (hz : w &&& mustBeZero (opField w) = 0) :
    opcodeTable.find? (fun row => w &&& row.mask == row.bits) = opcodeRow (opField w) := by
  rw [find_row_of_ne_zero hne]
  refine List.find?_congr fun row hrow => ?_
  rw [Bool.eq_iff_iff, beq_iff_eq, beq_iff_eq, row_matches_iff hrow, and_iff_left hz]
  exact eq_comm

/-- A word with a must-be-zero bit set matches no row. -/
theorem find_row_of_reserved {w : Word} (hz : w &&& mustBeZero (opField w) ≠ 0) :
    opcodeTable.find? (fun row => w &&& row.mask == row.bits) = none := by
  rw [find_row_of_ne_zero fun h => hz (by rw [h]; exact BitVec.zero_and)]
  refine List.find?_eq_none.2 fun row hrow hmatch => hz ?_
  exact ((row_matches_iff hrow w).1 (beq_iff_eq.1 hmatch)).2

/-! ### Decoding the first word (R62) -/

theorem decodeFirst_zero : decodeFirst 0 = .ok (.whole .nop) := rfl

/-- A word other than 0x0000 whose must-be-zero bits are zero is read by the row of its opcode. -/
theorem decodeFirst_of_row {w : Word} {op : BitVec 6} {row : OpcodeRow} (hop : opField w = op)
    (hrow : opcodeRow op = some row) (hz : w &&& mustBeZero op = 0) (hne : w ≠ 0) :
    decodeFirst w = .ok (row.read w) := by
  subst hop
  exact decodeFirst_of_find ((find_row_of_legal hne hz).trans hrow)

/-- A word that decodes is 0x0000, or is read by the row of its opcode. -/
theorem decodeFirst_ok_cases {w : Word} {f : FirstWord} (h : decodeFirst w = .ok f) :
    (w = 0 ∧ f = .whole .nop) ∨
      (w ≠ 0 ∧ ∃ row ∈ opcodeTable.tail, opField w = opField row.bits
        ∧ w &&& mustBeZero (opField row.bits) = 0 ∧ f = row.read w) := by
  by_cases hw : w = 0
  · subst hw
    rw [decodeFirst_zero] at h
    cases h
    exact .inl ⟨rfl, rfl⟩
  · obtain ⟨row, hmem, hmatch, hread⟩ := decodeFirst_ok h
    rcases List.mem_cons.1 hmem with rfl | hmem
    · exact absurd (BitVec.and_allOnes.symm.trans hmatch) hw
    · obtain ⟨hop, hz⟩ := (row_matches_iff hmem w).1 hmatch
      rw [hop] at hz
      exact .inr ⟨hw, row, hmem, hop, hz, hread⟩

theorem not_illegalWord_zero : ¬ IllegalWord 0 := by simp only [IllegalWord]; decide

theorem decodeFirst_of_illegalWord {w : Word} (h : IllegalWord w) : decodeFirst w = .error (.illegal w) := by
  refine decodeFirst_of_find_none ?_
  have hne : w ≠ 0 := fun hw => not_illegalWord_zero (hw ▸ h)
  by_cases hz : w &&& mustBeZero (opField w) = 0
  · have hop : unassignedOpcode (opField w) = true := h.resolve_right fun hset => hset hz
    rw [unassignedOpcode_eq, Option.isNone_iff_eq_none] at hop
    rw [find_row_of_legal hne hz, hop]
  · exact find_row_of_reserved hz

theorem decodeFirst_of_not_illegalWord {w : Word} (h : ¬ IllegalWord w) : ∃ f, decodeFirst w = .ok f := by
  obtain ⟨hop, hz⟩ := not_or.1 h
  by_cases hw : w = 0
  · exact ⟨_, hw ▸ decodeFirst_zero⟩
  · rw [unassignedOpcode_eq, Option.isNone_iff_eq_none] at hop
    obtain ⟨row, hrow⟩ := Option.ne_none_iff_exists'.1 hop
    exact ⟨_, decodeFirst_of_row rfl hrow (not_not.1 hz) hw⟩

/-- A word that does not decode is illegal, and is reported as it is (R59). -/
theorem illegalWord_of_decodeFirst_error {w : Word} {e : DecodeError} (h : decodeFirst w = .error e) :
    IllegalWord w := by
  by_contra hlegal
  obtain ⟨f, hf⟩ := decodeFirst_of_not_illegalWord hlegal
  cases h.symm.trans hf

/-- Settles O4: it holds, since the map has a row for each assigned opcode, which tests the must-be-zero bits. -/
theorem wordIsIllegalExactlyWhenUnassignedOrAReservedBitIsSet :
    Obligations.WordIsIllegalExactlyWhenUnassignedOrAReservedBitIsSet :=
  fun _ => ⟨decodeFirst_of_illegalWord, decodeFirst_of_not_illegalWord⟩

/-! ### Decoding what is encoded -/

/-- The bytes of a one-word instruction whose word decodes to it. -/
theorem decodeBytes_encodeBytes_whole {i : Instr} {w : Word} (henc : encode i = [w])
    (h : decodeFirst w = .ok (.whole i)) (rest : List Byte) :
    decodeBytes (encodeBytes i ++ rest) = .ok (i, rest) := by
  simp [encodeBytes, henc, Word.bytes, decodeBytes, h]

/-- The bytes of a Direct-format instruction whose first word decodes to it without its address. -/
theorem decodeBytes_encodeBytes_direct {d : DirectOp} {w addr : Word}
    (henc : encode (d.withAddr addr) = [w, addr]) (h : decodeFirst w = .ok (.direct d)) (rest : List Byte) :
    decodeBytes (encodeBytes (d.withAddr addr) ++ rest) = .ok (d.withAddr addr, rest) := by
  simp [encodeBytes, henc, Word.bytes, decodeBytes, h]

theorem asm_ne_zero {op : BitVec 6} {rd rs : BitVec 3} {lo4 : BitVec 4} (hop : op ≠ 0) :
    asm op rd rs lo4 ≠ 0 :=
  fun h => hop ((opField_asm op rd rs lo4).symm.trans (congrArg opField h))

/-- A one-word instruction of the standard format, read by the row of its opcode. -/
theorem decodes_asm {i : Instr} {rd rs : BitVec 3} {lo4 : BitVec 4} {row : OpcodeRow}
    (henc : encode i = [asm i.opcode rd rs lo4]) (hrow : opcodeRow i.opcode = some row)
    (hz : asm i.opcode rd rs lo4 &&& mustBeZero i.opcode = 0) (hop : i.opcode ≠ 0)
    (hread : row.read (asm i.opcode rd rs lo4) = .whole i) (rest : List Byte) :
    decodeBytes (encodeBytes i ++ rest) = .ok (i, rest) := by
  refine decodeBytes_encodeBytes_whole henc ?_ rest
  rw [← hread, decodeFirst_of_row (opField_asm ..) hrow hz (asm_ne_zero hop)]

/-- A Direct-format instruction, its first word read by the row of its opcode. -/
theorem decodes_asm_direct (d : DirectOp) {op : BitVec 6} {rd rs : BitVec 3} {lo4 : BitVec 4}
    {addr : Word} {row : OpcodeRow} (henc : encode (d.withAddr addr) = [asm op rd rs lo4, addr])
    (hrow : opcodeRow op = some row) (hz : asm op rd rs lo4 &&& mustBeZero op = 0) (hop : op ≠ 0)
    (hread : row.read (asm op rd rs lo4) = .direct d) (rest : List Byte) :
    decodeBytes (encodeBytes (d.withAddr addr) ++ rest) = .ok (d.withAddr addr, rest) := by
  refine decodeBytes_encodeBytes_direct henc ?_ rest
  rw [← hread, decodeFirst_of_row (opField_asm ..) hrow hz (asm_ne_zero hop)]

/-- Every instruction but `MOV R0, R0` is well-formed (log 10). -/
theorem wellFormed_iff (i : Instr) : i.wellFormed = true ↔ i ≠ .mov .r0 .r0 := by
  cases i
  case mov rd rs =>
    rw [Instr.wellFormed, Bool.not_eq_true', Bool.and_eq_false_iff]
    simp only [beq_eq_false_iff_ne, ne_eq, Instr.mov.injEq, not_and_or]
  all_goals exact ⟨fun _ => nofun, fun _ => rfl⟩

/-- The word of MOV is 0x0000 where both registers are R0 only (R75). -/
theorem mov_word_eq_zero_iff (rd rs : Reg) : asm 0x00 rd.bits rs.bits 0 = 0 ↔ rd = .r0 ∧ rs = .r0 := by
  constructor
  · intro h
    have hrd := congrArg rdField h
    have hrs := congrArg rsField h
    rw [rdField_asm] at hrd
    rw [rsField_asm] at hrs
    exact ⟨hrd, hrs⟩
  · rintro ⟨rfl, rfl⟩
    rfl

@[simp] theorem rdField_movi (op : BitVec 6) (rd : Reg) (imm : BitVec 7) :
    rdField (op ++ rd.bits ++ imm) = rd := by
  rw [rdField, ← Reg.ofBits_bits rd]
  congr 1
  apply BitVec.eq_of_getLsbD_eq
  intro k hk
  simp only [BitVec.getLsbD_extractLsb', BitVec.getLsbD_append, hk, show ¬ 7 + k < 7 by omega,
    show 7 + k - 7 = k by omega]
  simp

@[simp] theorem imm7Field_movi (op : BitVec 6) (rd : BitVec 3) (imm : BitVec 7) :
    imm7Field (op ++ rd ++ imm) = imm := by
  apply BitVec.eq_of_getLsbD_eq
  intro k hk
  simp only [imm7Field, BitVec.getLsbD_extractLsb', BitVec.getLsbD_append, hk, Nat.zero_add]
  simp

theorem decodes_movi (rd : Reg) (imm : BitVec 7) (rest : List Byte) :
    decodeBytes (encodeBytes (.movi rd imm) ++ rest) = .ok (.movi rd imm, rest) := by
  have hop := Laws.EncodeShape.opField_movi rd.bits imm
  refine decodeBytes_encodeBytes_whole rfl ((decodeFirst_of_row hop rfl ?_ ?_).trans ?_) rest
  · exact BitVec.and_zero
  · exact fun h => absurd (hop.symm.trans (congrArg opField h)) (by decide)
  · simp

theorem decodes_mov {rd rs : Reg} (h : Instr.wellFormed (.mov rd rs) = true) (rest : List Byte) :
    decodeBytes (encodeBytes (.mov rd rs) ++ rest) = .ok (.mov rd rs, rest) := by
  refine decodeBytes_encodeBytes_whole rfl
    ((decodeFirst_of_row (opField_asm 0x00 rd.bits rs.bits 0) rfl ?_ fun hz => ?_).trans ?_) rest
  · exact asm_r2_legal ..
  · obtain ⟨rfl, rfl⟩ := (mov_word_eq_zero_iff rd rs).1 hz
    exact (wellFormed_iff _).1 h rfl
  · simp

theorem decodes_direct (d : DirectOp) (addr : Word) (rest : List Byte) :
    decodeBytes (encodeBytes (d.withAddr addr) ++ rest) = .ok (d.withAddr addr, rest) := by
  cases d
  case loadDir rd =>
    refine decodes_asm_direct (.loadDir rd) rfl rfl ?_ (by decide) ?_ rest
    · exact asm_r1d_legal ..
    · simp
  case storeDir rs =>
    refine decodes_asm_direct (.storeDir rs) rfl rfl ?_ (by decide) ?_ rest
    · exact asm_r1s_legal ..
    · simp
  case jmp | jz | jnz | jc | jnc | jn | call =>
    refine decodes_asm_direct _ rfl rfl ?_ (by decide) rfl rest
    exact asm_imp_legal ..

theorem decodeBytes_encodeBytes {i : Instr} (hi : i.wellFormed = true) (rest : List Byte) :
    decodeBytes (encodeBytes i ++ rest) = .ok (i, rest) := by
  cases i
  case nop => exact decodeBytes_encodeBytes_whole rfl decodeFirst_zero rest
  case mov => exact decodes_mov hi rest
  case movi rd imm => exact decodes_movi rd imm rest
  case loadDir rd addr => exact decodes_direct (.loadDir rd) addr rest
  case storeDir rs addr => exact decodes_direct (.storeDir rs) addr rest
  case jmp addr => exact decodes_direct .jmp addr rest
  case jz addr => exact decodes_direct .jz addr rest
  case jnz addr => exact decodes_direct .jnz addr rest
  case jc addr => exact decodes_direct .jc addr rest
  case jnc addr => exact decodes_direct .jnc addr rest
  case jn addr => exact decodes_direct .jn addr rest
  case call addr => exact decodes_direct .call addr rest
  case loadInd | storeInd | addi | subi | andi | ori | shli | shri =>
    refine decodes_asm rfl rfl ?_ (by simp [Instr.opcode]) ?_ rest
    · exact BitVec.and_zero
    · simp
  case add | sub | mul | div | and | or | xor | shl | shr =>
    refine decodes_asm rfl rfl ?_ (by simp [Instr.opcode]) ?_ rest
    · exact asm_r3_legal ..
    · simp
  case not =>
    refine decodes_asm rfl rfl ?_ (by simp [Instr.opcode]) ?_ rest
    · exact asm_r2_legal ..
    · simp
  case inc | dec | pop =>
    refine decodes_asm rfl rfl ?_ (by simp [Instr.opcode]) ?_ rest
    · exact asm_r1d_legal ..
    · simp
  case push =>
    refine decodes_asm rfl rfl ?_ (by simp [Instr.opcode]) ?_ rest
    · exact asm_r1s_legal ..
    · simp
  case cmp =>
    refine decodes_asm rfl rfl ?_ (by simp [Instr.opcode]) ?_ rest
    · exact asm_rc_legal ..
    · simp
  case cmpi =>
    refine decodes_asm rfl rfl ?_ (by simp [Instr.opcode]) ?_ rest
    · exact asm_ci_legal ..
    · simp
  case ret | halt =>
    refine decodes_asm rfl rfl ?_ (by decide) rfl rest
    exact asm_imp_legal ..

/-- Settles O1: it holds, since every encoded word is legal and the row of its opcode reads its operands back. -/
theorem decodingAnEncodedInstructionGivesItBack : Obligations.DecodingAnEncodedInstructionGivesItBack :=
  ⟨fun _ rest hi => decodeBytes_encodeBytes hi rest,
    decodeBytes_encodeBytes_whole rfl decodeFirst_zero⟩

/-! ### Encoding what is decoded -/

/-- What a first word decodes to is encoded by that word, followed in the Direct format by the address word (R64). -/
def FirstWord.EncodedBy (w : Word) : FirstWord → Prop
  | .whole i => encode i = [w]
  | .direct d => ∀ addr, encode (d.withAddr addr) = [w, addr]

/-- Reading a legal word by the row of its opcode gives what the word encodes. -/
def OpcodeRow.Sound (row : OpcodeRow) : Prop :=
  ∀ w, opField w = opField row.bits → w &&& mustBeZero (opField row.bits) = 0 → (row.read w).EncodedBy w

theorem opcodeRows_sound : ∀ row ∈ opcodeTable.tail, row.Sound := by
  simp only [opcodeTable, List.tail_cons, List.forall_mem_cons, List.not_mem_nil, false_implies]
  refine ⟨?mov, ?movi, ?loadInd, ?loadDir, ?storeInd, ?storeDir, ?add, ?addi, ?sub, ?subi, ?mul, ?div,
    ?inc, ?dec, ?and, ?andi, ?or, ?ori, ?xor, ?not, ?shl, ?shli, ?shr, ?shri, ?cmp, ?cmpi, ?jmp, ?jz,
    ?jnz, ?jc, ?jnc, ?jn, ?call, ?ret, ?push, ?pop, ?halt, fun _ => trivial⟩
  case loadInd | storeInd | addi | subi | andi | ori | shli | shri =>
    exact fun w hop _ => congrArg ([·]) (eq_asm_ri hop)
  case add | sub | mul | div | and | or | xor | shl | shr =>
    exact fun w hop hz => congrArg ([·]) (eq_asm_r3 hop hz)
  case mov | not => exact fun w hop hz => congrArg ([·]) (eq_asm_r2 hop hz)
  case inc | dec | pop => exact fun w hop hz => congrArg ([·]) (eq_asm_r1d hop hz)
  case push => exact fun w hop hz => congrArg ([·]) (eq_asm_r1s hop hz)
  case cmp => exact fun w hop hz => congrArg ([·]) (eq_asm_rc hop hz)
  case cmpi => exact fun w hop hz => congrArg ([·]) (eq_asm_ci hop hz)
  case ret | halt => exact fun w hop hz => congrArg ([·]) (eq_asm_imp hop hz)
  case loadDir => exact fun w hop hz addr => congrArg ([·, addr]) (eq_asm_r1d hop hz)
  case storeDir => exact fun w hop hz addr => congrArg ([·, addr]) (eq_asm_r1s hop hz)
  case jmp | jz | jnz | jc | jnc | jn | call =>
    exact fun w hop hz addr => congrArg ([·, addr]) (eq_asm_imp hop hz)
  case movi => exact fun w hop _ => congrArg ([·]) (eq_movi_word hop)

/-- A word that decodes encodes what it decodes to, and is 0x0000 for NOP only. -/
theorem encodedBy_of_decodeFirst {w : Word} {f : FirstWord} (h : decodeFirst w = .ok f) :
    f.EncodedBy w ∧ (w = 0 → f = .whole .nop) := by
  rcases decodeFirst_ok_cases h with ⟨rfl, rfl⟩ | ⟨hne, row, hmem, hop, hz, rfl⟩
  · exact ⟨rfl, fun _ => rfl⟩
  · exact ⟨opcodeRows_sound row hmem w hop hz, fun hw => absurd hw hne⟩

theorem wellFormed_of_decodeFirst {w : Word} {i : Instr} (h : decodeFirst w = .ok (.whole i)) :
    i.wellFormed = true := by
  obtain ⟨henc, hzero⟩ := encodedBy_of_decodeFirst h
  refine (wellFormed_iff i).2 fun hi => ?_
  subst hi
  cases hzero (List.singleton_inj.1 henc).symm

theorem wellFormed_withAddr (d : DirectOp) (addr : Word) : (d.withAddr addr).wellFormed = true := by
  cases d <;> rfl

/-- All that decoding a list of bytes can answer but an error (R60). -/
theorem decodeBytes_ok {bytes rest : List Byte} {i : Instr} (h : decodeBytes bytes = .ok (i, rest)) :
    ∃ lo hi tail, bytes = lo :: hi :: tail ∧
      ((decodeFirst (Word.ofBytes lo hi) = .ok (.whole i) ∧ tail = rest) ∨
        ∃ d lo2 hi2, decodeFirst (Word.ofBytes lo hi) = .ok (.direct d) ∧ tail = lo2 :: hi2 :: rest
          ∧ i = d.withAddr (Word.ofBytes lo2 hi2)) := by
  unfold decodeBytes at h
  split at h
  · next lo hi tail =>
    refine ⟨lo, hi, tail, rfl, ?_⟩
    split at h
    · cases h
    · next j hd =>
      cases h
      exact .inl ⟨hd, rfl⟩
    · next d hd =>
      split at h
      · next lo2 hi2 tail2 =>
        cases h
        exact .inr ⟨d, lo2, hi2, hd, rfl, rfl⟩
      · cases h
  · cases h

theorem wellFormed_and_eq_encodeBytes {bytes rest : List Byte} {i : Instr}
    (h : decodeBytes bytes = .ok (i, rest)) : i.wellFormed = true ∧ bytes = encodeBytes i ++ rest := by
  obtain ⟨lo, hi, tail, rfl, ⟨hd, rfl⟩ | ⟨d, lo2, hi2, hd, rfl, rfl⟩⟩ := decodeBytes_ok h
  · refine ⟨wellFormed_of_decodeFirst hd, ?_⟩
    have henc : encode i = [Word.ofBytes lo hi] := (encodedBy_of_decodeFirst hd).1
    simp [encodeBytes, henc, Word.bytes]
  · refine ⟨wellFormed_withAddr .., ?_⟩
    have henc := (encodedBy_of_decodeFirst hd).1 (Word.ofBytes lo2 hi2)
    simp [encodeBytes, henc, Word.bytes]

/-- Settles O2: it holds, since every row reads back the operands that the word is made of. -/
theorem decodedBytesAreTheEncodingOfTheInstruction :
    Obligations.DecodedBytesAreTheEncodingOfTheInstruction :=
  fun _ _ _ => wellFormed_and_eq_encodeBytes

/-! ### Lengths and words of the specification -/

/-- Every instruction encodes to as many words as its opcode says, its opcode in the first (R58, R60). -/
theorem encodeShape (i : Instr) : Laws.EncodeShape.Statement i := by
  cases i
  case movi rd imm => exact Laws.EncodeShape.movi rd imm
  case nop => exact Laws.EncodeShape.nop
  all_goals exact ⟨rfl, _, _, rfl, opField_asm ..⟩

theorem length_encodeBytes (i : Instr) : (encodeBytes i).length = 2 * i.words := by
  have htwo : ∀ ws : List Word, (ws.flatMap Word.bytes).length = 2 * ws.length := by
    intro ws
    induction ws with
    | nil => rfl
    | cons w ws ih => simp [Word.bytes, ih]; omega
  rw [encodeBytes, htwo, (encodeShape i).1]

/-- Settles O5: it holds, since the bytes that decode are the encoding, which is as long as its opcode says. -/
theorem opcodeAloneDecidesTheLength : Obligations.OpcodeAloneDecidesTheLength := by
  intro lo hi tail rest i h
  obtain ⟨-, hbytes⟩ := wellFormed_and_eq_encodeBytes h
  obtain ⟨-, w, ws, henc, hop⟩ := encodeShape i
  have hlength := congrArg List.length hbytes
  have hfirst : Word.ofBytes lo hi = w := by
    simp only [encodeBytes, henc, List.flatMap_cons, Word.bytes, List.cons_append, List.cons.injEq] at hbytes
    rw [hbytes.1, hbytes.2.1, Machine.Word.ofBytes_lo_hi]
  rw [List.length_append, length_encodeBytes, Instr.words, opcodeWords, ← hop, ← hfirst] at hlength
  simp only [List.length_cons] at hlength
  split at hlength
  · next h => rw [if_pos h]; omega
  · next h => rw [if_neg h]; omega

/-- Settles O3: it holds, by decoding each of the words. -/
theorem wordsOfTheSpecDecodeAsItSays : Obligations.WordsOfTheSpecDecodeAsItSays := by
  refine ⟨?_, ?_, ?_, ?_, ?_, ?_, ?_, ?_, ?_, ?_, ?_, ?_, ?_⟩ <;> decide

end Sys2Proof
end

section
/-! PROOFS. Fetch and step (R60, R61, R163). All that the fetch can answer is written out once, its faults in the order
they are found; a running machine's step is then a fault of the fetch or the meaning of the fetched instruction, and
either answers a next state. -/

namespace Sys2Proof.Machine

/-! ### The fetch -/

theorem State.fetchWord_device (s : State) {a : Word} (h : isIO a = true) :
    s.fetchWord Config.misalignedPolicy a = .error (.fetchFromIO a s.pc) :=
  if_pos h

theorem State.fetchWord_misaligned (s : State) {a : Word} (h : IsRamOdd a) :
    s.fetchWord Config.misalignedPolicy a = .error (.misalignedAccess a .fetch s.pc) := by
  obtain ⟨hio, hodd⟩ := h
  simp [State.fetchWord, misaligned_config, hio, hodd]

theorem State.fetchWord_ram (s : State) {a : Word} (h : IsRamEven a) :
    s.fetchWord Config.misalignedPolicy a = .ok (s.ramWord a) := by
  obtain ⟨hio, heven⟩ := h
  simp [State.fetchWord, misaligned_config, hio, heven]

/-- The word after an even address is at an even address, the last address of memory included (R42). -/
theorem isOdd_add_two (a : Word) : isOdd (a + 2) = isOdd a := by
  have := a.isLt
  simp only [isOdd_eq, BitVec.toNat_add, show (2 : Word).toNat = 2 from rfl, decide_eq_decide]
  omega

theorem isOdd_sub_two (a : Word) : isOdd (a - 2) = isOdd a := by
  rw [← isOdd_add_two (a - 2), sub_add_cancel]

/-- The faults of fetch and decode, each with its cause (R41, R55, R163). -/
inductive FetchFault (s : State) : Fault → Prop where
  | device (hio : isIO s.pc = true) : FetchFault s (.fetchFromIO s.pc s.pc)
  | misaligned (hodd : IsRamOdd s.pc) : FetchFault s (.misalignedAccess s.pc .fetch s.pc)
  | illegal (hram : IsRamEven s.pc) (hword : IllegalWord (s.ramWord s.pc)) :
    FetchFault s (.illegalInstruction (s.ramWord s.pc) s.pc)
  | addressWord (hram : IsRamEven s.pc) (d : DirectOp) (hword : decodeFirst (s.ramWord s.pc) = .ok (.direct d))
      (hio : isIO (s.pc + 2) = true) : FetchFault s (.fetchFromIO (s.pc + 2) s.pc)

/-- The fetch answers a fault where that fault has its cause. -/
theorem FetchFault.fetchInstr {s : State} {f : Fault} (h : FetchFault s f) :
    s.fetchInstr Config.misalignedPolicy = .error f := by
  cases h with
  | device hio => rw [State.fetchInstr, s.fetchWord_device hio]
  | misaligned hodd => rw [State.fetchInstr, s.fetchWord_misaligned hodd]
  | illegal hram hword =>
    simp only [State.fetchInstr, s.fetchWord_ram hram, decodeFirst_of_illegalWord hword]
  | addressWord hram d hword hio =>
    simp only [State.fetchInstr, s.fetchWord_ram hram, hword, s.fetchWord_device hio]

/-- The fetch answers no other fault: an address word is never misaligned. -/
theorem fetchFault_of_fetchInstr {s : State} {f : Fault}
    (h : s.fetchInstr Config.misalignedPolicy = .error f) : FetchFault s f := by
  unfold State.fetchInstr at h
  obtain ⟨hio, e⟩ | ⟨hio, hodd, e⟩ | ⟨hio, heven, e⟩ := s.fetchWord_cases Config.misalignedPolicy s.pc <;>
    simp only [e] at h
  · cases h
    exact .device hio
  · cases h
    exact .misaligned ⟨hio, hodd⟩
  · split at h
    · next hword =>
      cases h
      exact .illegal ⟨hio, heven⟩ (illegalWord_of_decodeFirst_error hword)
    · cases h
    · next d hword =>
      obtain ⟨hio2, e2⟩ | ⟨-, hodd2, -⟩ | ⟨-, -, e2⟩ :=
        s.fetchWord_cases Config.misalignedPolicy (s.pc + 2)
      · simp only [e2] at h
        cases h
        exact .addressWord ⟨hio, heven⟩ d hword hio2
      · rw [misaligned_config, isOdd_add_two] at hodd2
        cases hodd2.symm.trans heven
      · simp only [e2] at h
        cases h

theorem words_withAddr (d : DirectOp) (addr : Word) : (d.withAddr addr).words = 2 := by cases d <;> rfl

/-- Where the fetch does not fault, it answers what the bytes at `pc` decode to (R60, R61). -/
theorem State.fetchInstr_of_decodeBytes {s : State} {i : Instr} {rest : List Byte} (hram : IsRamEven s.pc)
    (haddr : i.words = 2 → isIO (s.pc + 2) = false)
    (h : decodeBytes [s.byte s.pc.toNat, s.byte (s.pc + 1).toNat, s.byte (s.pc + 2).toNat,
      s.byte (s.pc + 3).toNat] = .ok (i, rest)) :
    s.fetchInstr Config.misalignedPolicy = .ok i := by
  obtain ⟨lo, hi, tail, hbytes, hdecode⟩ := decodeBytes_ok h
  cases hbytes
  rcases hdecode with ⟨hword, -⟩ | ⟨d, lo2, hi2, hword, htail, rfl⟩
  · have hfirst : decodeFirst (s.ramWord s.pc) = .ok (.whole i) := hword
    simp only [State.fetchInstr, s.fetchWord_ram hram, hfirst]
  · have hfirst : decodeFirst (s.ramWord s.pc) = .ok (.direct d) := hword
    have hram2 : IsRamEven (s.pc + 2) :=
      ⟨haddr (words_withAddr ..), (isOdd_add_two s.pc).trans hram.2⟩
    have hnext : s.pc + 3 = s.pc + 2 + 1 := by rw [BitVec.add_assoc]; rfl
    cases htail
    simp only [State.fetchInstr, s.fetchWord_ram hram, hfirst, s.fetchWord_ram hram2]
    rw [State.ramWord, ← hnext]

/-! ### The obligations -/

/-- Settles O6: it holds, since the fetch reads the four bytes that are decoded. -/
theorem stepRunsTheDecodedInstruction : Obligations.StepRunsTheDecodedInstruction :=
  fun _ _ _ ⟨hfault, hhalted⟩ hram haddr hbytes =>
    step_of_fetch_ok hfault hhalted (State.fetchInstr_of_decodeBytes hram haddr hbytes)

theorem FetchFault.step {s : State} {f : Fault} (hrun : s.Running) (h : FetchFault s f) :
    step s = .next { s with fault := some f } :=
  step_of_fetch_error hrun.1 hrun.2 h.fetchInstr

/-- Settles O7: it holds, since the fetch finds each fault where it has its cause. -/
theorem fetchFaultsAreFoundInOrder : Obligations.FetchFaultsAreFoundInOrder :=
  fun s hrun => ⟨fun hio => (FetchFault.device hio).step hrun,
    fun hodd => (FetchFault.misaligned hodd).step hrun,
    fun hram hword => (FetchFault.illegal hram hword).step hrun,
    fun hram => (isOdd_add_two s.pc).trans hram.2,
    fun d hram hword hio => (FetchFault.addressWord hram d hword hio).step hrun⟩

/-- Settles O10: it holds, by the first two tests of a step. -/
theorem faultedOrHaltedMachineHasNoStep : Obligations.FaultedOrHaltedMachineHasNoStep := by
  refine ⟨fun s f hfault => ?_, fun s hfault hhalted => ?_⟩
  · rw [step, hfault]
  · simp only [step, hfault, hhalted, if_true]

/-- Every instruction, in every state, answers a next state. -/
theorem exec_next (i : Instr) (s : State) : ∃ t, exec i s = .next t := by
  rcases exec_completesOrRaises i s with ⟨t, hexec, -⟩ | ⟨f, hraises⟩
  · exact ⟨t, hexec⟩
  · exact ⟨_, hraises⟩

/-- Settles O11: it holds, since a fault of the fetch is recorded and every instruction answers a next state. -/
theorem runningMachineAlwaysSteps : Obligations.RunningMachineAlwaysSteps := by
  intro s hrun
  cases hfetch : s.fetchInstr Config.misalignedPolicy with
  | error f => exact ⟨_, step_of_fetch_error hrun.1 hrun.2 hfetch⟩
  | ok i =>
    rw [step_of_fetch_ok hrun.1 hrun.2 hfetch]
    exact exec_next i s

end Sys2Proof.Machine
end

section
/-! PROOFS. What an instruction leaves unchanged. `effectOf` collects what an instruction may write. `Completed`
says of two states that nothing else differs, and has one rule per state operation; an instruction that completes is a
chain of these operations. One that does not complete raises a fault, whose cause `FaultCause` names. Every frame
statement and the invariant are read off these two. -/

namespace Sys2Proof.Machine

/-- What an instruction may write. -/
structure Effect where
  /-- The general register that it writes. -/
  dest : Option Reg
  /-- The flags that it writes. -/
  flags : FlagClass
  /-- The address of the word that it stores. -/
  store : Option Word
  /-- It may move `sp`. -/
  stack : Bool
  /-- The `pc` that it leaves, where that is the next instruction's address. -/
  next : Option Word
  /-- It halts the machine. -/
  halts : Bool

/-- What an instruction may write in a state, by the classification that the statements use. -/
def effectOf (i : Instr) (s : State) : Effect where
  dest := destReg i
  flags := flagClass i
  store := storeAddr i s
  stack := usesStack i
  next := bif isControl i then none else some (s.pc + BitVec.ofNat 16 (2 * i.words))
  halts := decide (i = .halt)

/-- The trace is as before, or has one device access more (R23). -/
def TraceGrows (s t : State) : Prop := t.io = s.io ∨ ∃ e, t.io = s.io ++ [e] ∧ isIO e.addr = true

/-- Nothing but what the effect names differs between the state before and the state after. -/
structure Completed (e : Effect) (s t : State) : Prop where
  regs : ∀ r, e.dest ≠ some r → t.reg r = s.reg r
  flagsNone : e.flags = .none → t.flags = s.flags
  flagsZN : e.flags = .zn → t.flags.c = s.flags.c ∧ t.flags.o = s.flags.o
  stored : ∀ a, e.store = some a → MemKeptBut a s t
  unstored : e.store = none → MemKept s t
  canonical : s.mem.wf → t.mem.wf
  sp : e.stack = false → t.sp = s.sp
  spParity : isOdd t.sp = isOdd s.sp
  pc : ∀ a, e.next = some a → t.pc = a
  halted : t.halted = (s.halted || e.halts)
  fault : t.fault = s.fault
  trace : TraceGrows s t

/-! ### One rule per state operation -/

/-- Nothing is written. -/
def Effect.none : Effect := ⟨.none, .none, .none, false, .none, false⟩

theorem Completed.refl (s : State) : Completed Effect.none s s where
  regs _ _ := rfl
  flagsNone _ := rfl
  flagsZN _ := ⟨rfl, rfl⟩
  stored _ h := nomatch h
  unstored _ _ := rfl
  canonical h := h
  sp _ := rfl
  spParity := rfl
  pc _ h := nomatch h
  halted := (Bool.or_false _).symm
  fault := rfl
  trace := .inl rfl

theorem Completed.deviceRead (s : State) {a : Word} (h : isIO a = true) :
    Completed Effect.none s (s.deviceRead a).2 :=
  { Completed.refl s with trace := .inr ⟨_, rfl, h⟩ }

theorem Completed.deviceWrite (s : State) {a : Word} (v : Word) (h : isIO a = true) :
    Completed { Effect.none with store := some a } s (s.deviceWrite a v) :=
  { Completed.refl s with
    stored := fun _ _ _ _ _ => rfl
    unstored := nofun
    trace := .inr ⟨_, rfl, h⟩ }

theorem Completed.setRamWord (s : State) {a : Word} (v : Word) (h : IsRamEven a) :
    Completed { Effect.none with store := some a } s (s.setRamWord a v) :=
  { Completed.refl s with
    stored := fun _ hb => Option.some.inj hb ▸ (storedWord_setRamWord s a v).rest
    unstored := nofun
    canonical := fun hwf => State.wf_setRamWord hwf v h.1 ((isIO_succ_of_even h.2).trans h.1) }

section
variable {e : Effect} {s t : State}

theorem Completed.setReg (h : Completed e s t) (rd : Reg) (v : Word) (hdest : e.dest = .none) :
    Completed { e with dest := some rd } s (t.setReg rd v) :=
  { h with
    regs := fun r hr => (State.reg_setReg_of_ne t v fun hrd => hr (congrArg some hrd.symm)).trans
      (h.regs r (hdest ▸ nofun)) }

theorem Completed.setFlags (h : Completed e s t) (f : Flags) :
    Completed { e with flags := .as } s (t.setFlags f) :=
  { h with flagsNone := nofun, flagsZN := nofun }

theorem Completed.setZN (h : Completed e s t) (r : Word) (hflags : e.flags = .none) :
    Completed { e with flags := .zn } s (t.setZN Config.coPolicy r) :=
  { h with
    flagsNone := nofun
    flagsZN := fun _ => h.flagsNone hflags ▸ ⟨rfl, rfl⟩ }

theorem Completed.setSp (h : Completed e s t) {p : Word} (hp : isOdd p = isOdd s.sp) :
    Completed { e with stack := true } s (t.setSp p) :=
  { h with sp := nofun, spParity := hp }

theorem Completed.setPc (h : Completed e s t) (a : Word) :
    Completed { e with next := .none } s (t.setPc a) :=
  { h with pc := nofun }

theorem Completed.advance (h : Completed e s t) (n : Word) :
    Completed { e with next := some (t.pc + n) } s (t.advance n) :=
  { h with pc := fun _ ha => Option.some.inj ha }

theorem Completed.halt (h : Completed e s t) : Completed { e with halts := true } s t.halt :=
  { h with halted := (Bool.or_true _).symm }

end

/-! ### Completing, or raising a fault with its cause -/

/-- The faults of an instruction, each with its cause (R35, R36, R95). -/
inductive FaultCause (i : Instr) (s : State) : Fault → Prop where
  | read {a : Word} (haddr : loadAddr i s = some a) (hodd : IsRamOdd a) :
    FaultCause i s (.misalignedAccess a .read s.pc)
  | write {a : Word} (haddr : storeAddr i s = some a) (hodd : IsRamOdd a) :
    FaultCause i s (.misalignedAccess a .write s.pc)
  | divide {rd rs rt : Reg} (hdiv : i = .div rd rs rt) (hzero : s.reg rt = 0) :
    FaultCause i s (.divideByZero s.pc)

/-- The instruction completes and writes no more than its effect, or raises a fault that has its cause. -/
def CompletesOrFaults (i : Instr) (s : State) : Prop :=
  (∃ t, exec i s = .next t ∧ Completed (effectOf i s) s t) ∨ ∃ f, exec i s = s.takeFault f ∧ FaultCause i s f

section
variable {i : Instr} {s : State}

theorem completesOrFaults_of_exec_next {t : State} (hexec : exec i s = .next t)
    (h : Completed (effectOf i s) s t) : CompletesOrFaults i s :=
  .inl ⟨t, hexec, h⟩

theorem completesOrFaults_of_exec_setFlags {f : Flags} (hexec : exec i s = .next ((s.setFlags f).advance 2))
    (heffect : effectOf i s = ⟨none, .as, none, false, some (s.pc + 2), false⟩) : CompletesOrFaults i s :=
  .inl ⟨_, hexec, heffect ▸ ((Completed.refl s).setFlags f).advance 2⟩

theorem completesOrFaults_of_exec_finishAS {rd : Reg} {p : Word × Flags} (hexec : exec i s = s.finishAS rd p)
    (heffect : effectOf i s = ⟨some rd, .as, none, false, some (s.pc + 2), false⟩) : CompletesOrFaults i s :=
  .inl ⟨_, hexec, heffect ▸ (((Completed.refl s).setReg rd p.1 rfl).setFlags p.2).advance 2⟩

theorem completesOrFaults_of_exec_finishZN {rd : Reg} {r : Word}
    (hexec : exec i s = s.finishZN Config.coPolicy rd r)
    (heffect : effectOf i s = ⟨some rd, .zn, none, false, some (s.pc + 2), false⟩) : CompletesOrFaults i s :=
  .inl ⟨_, hexec, heffect ▸ (((Completed.refl s).setReg rd r rfl).setZN r rfl).advance 2⟩

theorem completesOrFaults_of_exec_jumpIf {taken : Bool} {addr : Word} (hexec : exec i s = s.jumpIf taken addr)
    (heffect : effectOf i s = Effect.none) : CompletesOrFaults i s :=
  .inl ⟨_, hexec.trans (s.jumpIf_eq_setPc taken addr), heffect ▸ (Completed.refl s).setPc _⟩

theorem completesOrFaults_of_exec_loadFrom {ea n : Word} {rd : Reg} (hexec : exec i s = s.loadFrom ea rd n)
    (haddr : loadAddr i s = some ea)
    (heffect : effectOf i s = ⟨some rd, .none, none, false, some (s.pc + n), false⟩) : CompletesOrFaults i s := by
  obtain ⟨hio, e⟩ | ⟨hio, hodd, e⟩ | ⟨-, -, e⟩ := s.loadFrom_cases ea rd n <;> rw [e] at hexec
  · exact .inl ⟨_, hexec, heffect ▸ ((Completed.deviceRead s hio).setReg rd _ rfl).advance n⟩
  · exact .inr ⟨_, hexec, .read haddr ⟨hio, hodd⟩⟩
  · exact .inl ⟨_, hexec, heffect ▸ ((Completed.refl s).setReg rd _ rfl).advance n⟩

theorem completesOrFaults_of_exec_storeTo {ea v n : Word} (hexec : exec i s = s.storeTo ea v n)
    (haddr : storeAddr i s = some ea)
    (heffect : effectOf i s = ⟨none, .none, some ea, false, some (s.pc + n), false⟩) : CompletesOrFaults i s := by
  obtain ⟨hio, e⟩ | ⟨hio, hodd, e⟩ | ⟨hio, heven, e⟩ := s.storeTo_cases ea v n <;> rw [e] at hexec
  · exact .inl ⟨_, hexec, heffect ▸ (Completed.deviceWrite s v hio).advance n⟩
  · exact .inr ⟨_, hexec, .write haddr ⟨hio, hodd⟩⟩
  · exact .inl ⟨_, hexec, heffect ▸ (Completed.setRamWord s v ⟨hio, heven⟩).advance n⟩

end

/-- A push writes the word at `sp - 2` and `sp`, or is misaligned there (R15). -/
theorem State.pushWord_completed (s : State) (v : Word) :
    (∃ t, s.pushWord Config.misalignedPolicy v = .ok t ∧ t.pc = s.pc
      ∧ Completed { Effect.none with store := some s.pushAddr, stack := true } s t) ∨
    IsRamOdd s.pushAddr := by
  have hparity : isOdd s.pushAddr = isOdd s.sp := isOdd_sub_two s.sp
  obtain ⟨hio, e⟩ | ⟨hio, hodd, -⟩ | ⟨hio, heven, e⟩ := s.pushWord_cases v
  · exact .inl ⟨_, e, rfl, (Completed.deviceWrite s v hio).setSp hparity⟩
  · exact .inr ⟨hio, hodd⟩
  · exact .inl ⟨_, e, rfl, (Completed.setRamWord s v ⟨hio, heven⟩).setSp hparity⟩

/-- A pop writes `sp`, or is misaligned there (R15). -/
theorem State.popWord_completed (s : State) :
    (∃ v t, s.popWord Config.misalignedPolicy = .ok (v, t) ∧ t.pc = s.pc
      ∧ Completed { Effect.none with stack := true } s t) ∨
    IsRamOdd s.sp := by
  have hparity : isOdd (s.sp + 2) = isOdd s.sp := isOdd_add_two s.sp
  obtain ⟨hio, e⟩ | ⟨hio, hodd, -⟩ | ⟨-, -, e⟩ := s.popWord_cases
  · exact .inl ⟨_, _, e, rfl, (Completed.deviceRead s hio).setSp hparity⟩
  · exact .inr ⟨hio, hodd⟩
  · exact .inl ⟨_, _, e, rfl, (Completed.refl s).setSp hparity⟩

theorem completesOrFaults_call (addr : Word) (s : State) : CompletesOrFaults (.call addr) s := by
  obtain ⟨t, hpush, -, hdone⟩ | hodd := s.pushWord_completed (s.pc + 4)
  · exact .inl ⟨_, exec_call_of_pushWord_ok addr hpush, hdone.setPc addr⟩
  · exact .inr ⟨_, raises_call_of_pushWord_error addr (s.pushWord_misaligned _ hodd), .write rfl hodd⟩

theorem completesOrFaults_push (rs : Reg) (s : State) : CompletesOrFaults (.push rs) s := by
  obtain ⟨t, hpush, hpc, hdone⟩ | hodd := s.pushWord_completed (s.reg rs)
  · have heffect := hdone.advance 2
    rw [hpc] at heffect
    exact .inl ⟨_, exec_push_of_pushWord_ok hpush, heffect⟩
  · exact .inr ⟨_, raises_push_of_pushWord_error (s.pushWord_misaligned _ hodd), .write rfl hodd⟩

theorem completesOrFaults_ret (s : State) : CompletesOrFaults .ret s := by
  obtain ⟨v, t, hpop, -, hdone⟩ | hodd := s.popWord_completed
  · exact .inl ⟨_, exec_ret_of_popWord_ok hpop, hdone.setPc v⟩
  · exact .inr ⟨_, raises_ret_of_popWord_error (s.popWord_misaligned hodd), .read rfl hodd⟩

theorem completesOrFaults_pop (rd : Reg) (s : State) : CompletesOrFaults (.pop rd) s := by
  obtain ⟨v, t, hpop, hpc, hdone⟩ | hodd := s.popWord_completed
  · have heffect := (hdone.setReg rd v rfl).advance 2
    rw [State.pc_setReg, hpc] at heffect
    exact .inl ⟨_, exec_pop_of_popWord_ok rd hpop, heffect⟩
  · exact .inr ⟨_, raises_pop_of_popWord_error rd (s.popWord_misaligned hodd), .read rfl hodd⟩

theorem completesOrFaults_div (rd rs rt : Reg) (s : State) : CompletesOrFaults (.div rd rs rt) s := by
  by_cases hzero : s.reg rt = 0
  · exact .inr ⟨_, raises_div_of_zero rd rs hzero, .divide rfl hzero⟩
  · exact completesOrFaults_of_exec_finishZN (exec_div_of_ne_zero rd rs hzero) rfl

theorem exec_completesOrFaults (i : Instr) (s : State) : CompletesOrFaults i s := by
  cases i
  case mov | movi =>
    exact completesOrFaults_of_exec_next rfl (((Completed.refl s).setReg _ _ rfl).advance 2)
  case nop => exact completesOrFaults_of_exec_next rfl ((Completed.refl s).advance 2)
  case halt => exact completesOrFaults_of_exec_next rfl ((Completed.refl s).halt.advance 2)
  case cmp | cmpi => exact completesOrFaults_of_exec_setFlags rfl rfl
  case loadInd | loadDir => exact completesOrFaults_of_exec_loadFrom rfl rfl rfl
  case storeInd | storeDir => exact completesOrFaults_of_exec_storeTo rfl rfl rfl
  case add | addi | sub | subi | inc | dec => exact completesOrFaults_of_exec_finishAS rfl rfl
  case mul | and | andi | or | ori | xor | not | shl | shli | shr | shri =>
    exact completesOrFaults_of_exec_finishZN rfl rfl
  case div rd rs rt => exact completesOrFaults_div rd rs rt s
  case jmp | jz | jnz | jc | jnc | jn => exact completesOrFaults_of_exec_jumpIf rfl rfl
  case call addr => exact completesOrFaults_call addr s
  case ret => exact completesOrFaults_ret s
  case push rs => exact completesOrFaults_push rs s
  case pop rd => exact completesOrFaults_pop rd s

/-- All that an instruction can do: complete, or record a fault that has its cause. -/
theorem exec_cases {i : Instr} {s t : State} (h : exec i s = .next t) :
    Completed (effectOf i s) s t ∨ ∃ f, t = s.recordFault f ∧ FaultCause i s f := by
  rcases exec_completesOrFaults i s with ⟨u, hexec, hdone⟩ | ⟨f, hexec, hcause⟩
  · cases hexec.symm.trans h
    exact .inl hdone
  · cases hexec.symm.trans h
    exact .inr ⟨f, rfl, hcause⟩

/-! ### The frame obligations -/

/-- Settles O17: it holds, since the only operation on memory is the store of one word. -/
theorem onlyTheStoredWordChangesMemory : Obligations.OnlyTheStoredWordChangesMemory := by
  intro i s t h
  rcases exec_cases h with hdone | ⟨f, rfl, -⟩
  · exact ⟨hdone.stored, hdone.unstored⟩
  · exact ⟨fun _ _ _ _ _ => rfl, fun _ _ => rfl⟩

/-- Settles O18: it holds, since the only register written is the destination. -/
theorem onlyTheDestinationRegisterChanges : Obligations.OnlyTheDestinationRegisterChanges := by
  intro i s t h r hr
  rcases exec_cases h with hdone | ⟨f, rfl, -⟩
  · exact hdone.regs r hr
  · rfl

/-- Settles O19: it holds, by the flags that each class writes. -/
theorem flagsAreWrittenByTheirClassesOnly : Obligations.FlagsAreWrittenByTheirClassesOnly := by
  intro i s t h
  rcases exec_cases h with hdone | ⟨f, rfl, -⟩
  · exact ⟨hdone.flagsNone, hdone.flagsZN⟩
  · exact ⟨fun _ => rfl, fun _ => ⟨rfl, rfl⟩⟩

/-- Settles O20: it holds, since every instruction that does not write `pc` moves it past its words. -/
theorem nonControlInstructionsFallThrough : Obligations.NonControlInstructionsFallThrough := by
  intro i s t hcontrol hfault h
  rcases exec_cases h with hdone | ⟨f, rfl, -⟩
  · rw [if_pos (hdone.fault.trans hfault)]
    exact hdone.pc _ (by rw [effectOf, hcontrol, cond_false])
  · rw [if_neg (by rw [State.fault_recordFault]; exact Option.some_ne_none f), State.pc_recordFault]

/-- Settles O22: it holds, since no other operation touches `halted`. -/
theorem onlyHaltHalts : Obligations.OnlyHaltHalts := by
  intro i s t h
  rcases exec_cases h with hdone | ⟨f, rfl, hcause⟩
  · exact hdone.halted
  · have hne : i ≠ .halt := by rintro rfl; cases hcause with
      | read haddr _ => cases haddr
      | write haddr _ => cases haddr
      | divide hdiv _ => cases hdiv
    rw [decide_eq_false hne, Bool.or_false, State.halted_recordFault]

/-! ### The step -/

/-- All that a step can do: record a fault of the fetch, record a fault of the fetched instruction, or complete it. -/
theorem step_cases {s t : State} (h : step s = .next t) :
    s.Running ∧ ((∃ f, t = s.recordFault f ∧ FetchFault s f) ∨
      ∃ i, DecodesAtPc s i ∧
        (Completed (effectOf i s) s t ∨ ∃ f, t = s.recordFault f ∧ FaultCause i s f)) := by
  obtain ⟨hfault, hhalted, ⟨f, hfetch, rfl⟩ | ⟨i, hfetch, hexec⟩⟩ := step_next h
  · exact ⟨⟨hfault, hhalted⟩, .inl ⟨f, rfl, fetchFault_of_fetchInstr hfetch⟩⟩
  · exact ⟨⟨hfault, hhalted⟩, .inr ⟨i, decodesAtPc_of_fetchInstr hfetch, exec_cases hexec⟩⟩

/-- A step records a fault and changes nothing else, or completes an instruction. -/
theorem step_completes_or_faults {s t : State} (h : step s = .next t) :
    s.Running ∧ ((∃ f, t = s.recordFault f) ∨ ∃ i, Completed (effectOf i s) s t) := by
  obtain ⟨hrun, ⟨f, ht, -⟩ | ⟨i, -, hdone | ⟨f, ht, -⟩⟩⟩ := step_cases h
  · exact ⟨hrun, .inl ⟨f, ht⟩⟩
  · exact ⟨hrun, .inr ⟨i, hdone⟩⟩
  · exact ⟨hrun, .inl ⟨f, ht⟩⟩

/-- Settles O9: it holds, since the fetch and every instruction raise a fault from its cause only. -/
theorem onlyTheFourSituationsFault : Obligations.OnlyTheFourSituationsFault := by
  intro s t f hstep hfault
  obtain ⟨hrun, ⟨g, rfl, hcause⟩ | ⟨i, hdecode, hdone | ⟨g, rfl, hcause⟩⟩⟩ := step_cases hstep
  · cases hfault
    cases hcause with
    | device hio => exact ⟨rfl, hio, .inl rfl⟩
    | misaligned hodd => exact ⟨rfl, hodd, rfl⟩
    | illegal _ hword => exact ⟨rfl, rfl, hword⟩
    | addressWord _ d hword hio => exact ⟨rfl, hio, .inr ⟨rfl, d, hword⟩⟩
  · rw [hdone.fault, hrun.1] at hfault
    cases hfault
  · cases hfault
    cases hcause with
    | read haddr hodd => exact ⟨rfl, hodd, i, hdecode, haddr⟩
    | write haddr hodd => exact ⟨rfl, hodd, i, hdecode, haddr⟩
    | divide hdiv hzero => exact ⟨rfl, _, _, _, hdiv ▸ hdecode, hzero⟩

/-- Settles O16: it holds, since an instruction makes at most one data access. -/
theorem traceGrowsByAtMostOneDeviceAccess : Obligations.TraceGrowsByAtMostOneDeviceAccess := by
  intro s t h
  obtain ⟨-, ⟨f, rfl⟩ | ⟨i, hdone⟩⟩ := step_completes_or_faults h
  · exact .inl rfl
  · exact hdone.trace

theorem Completed.inv {e : Effect} {s t : State} (h : Completed e s t) (hs : s.Inv) (hfault : s.fault = none) :
    t.Inv where
  memCanonical := h.canonical hs.memCanonical
  spEven := h.spParity.trans hs.spEven
  ioAtDevices := by
    rcases h.trace with hio | ⟨a, hio, ha⟩ <;> rw [hio]
    · exact hs.ioAtDevices
    · exact List.forall_mem_append.2 ⟨hs.ioAtDevices, List.forall_mem_singleton.2 ha⟩
  haltedClean _ := h.fault.trans hfault

/-- Settles O12: it holds, since every state operation keeps the invariant, and a step halts or faults, never both. -/
theorem stepKeepsTheInvariant : Obligations.StepKeepsTheInvariant := by
  intro s t hs h
  obtain ⟨⟨hfault, hhalted⟩, ⟨f, rfl⟩ | ⟨i, hdone⟩⟩ := step_completes_or_faults h
  · exact { hs with haltedClean := fun hh => nomatch hhalted.symm.trans hh }
  · exact hdone.inv hs hfault

end Sys2Proof.Machine
end

section
/-! PROOFS. State that an instruction does not look at: `sp` outside the stack instructions (R14), and the flag O
(R20). An update of such state, `Inert` for what the other instructions use, passes through their meanings: running
after the update is the update of running. O is the one of the two that an instruction of class AS overwrites. -/

namespace Sys2Proof.Machine

/-- The outcome with its next state updated. -/
def mapNext (g : State → State) :
    Host.Outcome State Fault Refusal → Host.Outcome State Fault Refusal
  | .next t => .next (g t)
  | .fault f => .fault f
  | .refused r => .refused r

/-- An update that no register, flag but O, `pc` or data access sees, and that none of their updates touches. -/
structure Inert (g : State → State) : Prop where
  reg : ∀ s r, (g s).reg r = s.reg r
  pc : ∀ s, (g s).pc = s.pc
  z : ∀ s, (g s).flags.z = s.flags.z
  c : ∀ s, (g s).flags.c = s.flags.c
  n : ∀ s, (g s).flags.n = s.flags.n
  setReg : ∀ s r v, (g s).setReg r v = g (s.setReg r v)
  setPc : ∀ s v, (g s).setPc v = g (s.setPc v)
  setZN : ∀ s r, (g s).setZN Config.coPolicy r = g (s.setZN Config.coPolicy r)
  halt : ∀ s, (g s).halt = g s.halt
  recordFault : ∀ s f, (g s).recordFault f = g (s.recordFault f)
  memRead : ∀ s a, (g s).memRead Config.misalignedPolicy a
    = (s.memRead Config.misalignedPolicy a).map fun p => (p.1, g p.2)
  memWrite : ∀ s a v, (g s).memWrite Config.misalignedPolicy a v
    = (s.memWrite Config.misalignedPolicy a v).map g

/-! ### The two updates -/

/-- The flag O replaced. -/
def State.setO (s : State) (b : Bool) : State := s.setFlags { s.flags with o := b }

theorem inert_setSp (v : Word) : Inert (·.setSp v) where
  reg _ _ := rfl
  pc _ := rfl
  z _ := rfl
  c _ := rfl
  n _ := rfl
  setReg _ _ _ := rfl
  setPc _ _ := rfl
  setZN _ _ := rfl
  halt _ := rfl
  recordFault _ _ := rfl
  memRead s a := by unfold State.memRead; split <;> [rfl; (split <;> rfl)]
  memWrite s a v := by unfold State.memWrite; split <;> [rfl; (split <;> rfl)]

theorem inert_setO (b : Bool) : Inert (·.setO b) where
  reg _ _ := rfl
  pc _ := rfl
  z _ := rfl
  c _ := rfl
  n _ := rfl
  setReg _ _ _ := rfl
  setPc _ _ := rfl
  setZN _ _ := rfl
  halt _ := rfl
  recordFault _ _ := rfl
  memRead s a := by unfold State.memRead; split <;> [rfl; (split <;> rfl)]
  memWrite s a v := by unfold State.memWrite; split <;> [rfl; (split <;> rfl)]

/-! ### Instructions outside class AS and the stack -/

section
variable {g : State → State} (hg : Inert g) (s : State)
include hg

theorem Inert.advance (n : Word) : (g s).advance n = g (s.advance n) := by
  rw [State.advance, hg.pc, hg.setPc]
  rfl

theorem Inert.loadFrom (ea : Word) (rd : Reg) (n : Word) :
    (g s).loadFrom ea rd n = mapNext g (s.loadFrom ea rd n) := by
  rw [State.loadFrom, State.loadFrom, hg.memRead]
  cases s.memRead Config.misalignedPolicy ea with
  | error f => exact congrArg _ (hg.recordFault s f)
  | ok p => exact congrArg _ ((congrArg (·.advance n) (hg.setReg p.2 rd p.1)).trans (hg.advance _ n))

theorem Inert.storeTo (ea v n : Word) : (g s).storeTo ea v n = mapNext g (s.storeTo ea v n) := by
  rw [State.storeTo, State.storeTo, hg.memWrite]
  cases s.memWrite Config.misalignedPolicy ea v with
  | error f => exact congrArg _ (hg.recordFault s f)
  | ok t => exact congrArg _ (hg.advance t n)

theorem Inert.finishZN (rd : Reg) (r : Word) :
    (g s).finishZN Config.coPolicy rd r = mapNext g (s.finishZN Config.coPolicy rd r) := by
  rw [State.finishZN, hg.setReg, hg.setZN, hg.advance]
  rfl

theorem Inert.jumpIf (taken : Bool) (addr : Word) :
    (g s).jumpIf taken addr = mapNext g (s.jumpIf taken addr) := by
  rw [State.jumpIf_eq_setPc, State.jumpIf_eq_setPc, hg.setPc, hg.pc]
  rfl

theorem Inert.execDiv (rd rs rt : Reg) : execDiv rd rs rt (g s) = mapNext g (execDiv rd rs rt s) := by
  unfold Machine.execDiv
  rw [hg.reg, hg.reg, hg.finishZN, hg.pc]
  split
  · exact congrArg _ (hg.recordFault s _)
  · rfl

/-- An instruction that neither uses the stack nor is of class AS runs alike after an inert update. -/
theorem exec_of_inert {i : Instr} (hstack : usesStack i = false) (hclass : flagClass i ≠ .as) :
    exec i (g s) = mapNext g (exec i s) := by
  cases i
  case push | pop | call | ret => cases hstack
  case add | addi | sub | subi | inc | dec | cmp | cmpi => exact absurd rfl hclass
  case nop => exact congrArg _ (hg.advance s 2)
  case mov | movi =>
    simp only [exec, execMov, execMovi, hg.reg, hg.setReg, hg.advance, mapNext]
  case halt => simp only [exec, execHalt, hg.halt, hg.advance, mapNext]
  case loadInd | loadDir =>
    simp only [exec, execLoadInd, execLoadDir, State.effAddr, hg.reg, hg.loadFrom]
  case storeInd | storeDir =>
    simp only [exec, execStoreInd, execStoreDir, State.effAddr, hg.reg, hg.storeTo]
  case mul | and | andi | or | ori | xor | not | shl | shli | shr | shri =>
    simp only [exec, execMul, execAnd, execAndi, execOr, execOri, execXor, execNot, execShl, execShli,
      execShr, execShri, hg.reg, hg.finishZN]
  case div rd rs rt => exact hg.execDiv s rd rs rt
  case jmp | jz | jnz | jc | jnc | jn =>
    simp only [exec, execJmp, execJz, execJnz, execJc, execJnc, execJn, hg.z, hg.c, hg.n, hg.jumpIf]

end

/-! ### Instructions of class AS -/

/-- No instruction of class AS uses `sp`. -/
theorem exec_setSp_of_as {i : Instr} (hclass : flagClass i = .as) (s : State) (v : Word) :
    exec i (s.setSp v) = mapNext (·.setSp v) (exec i s) := by
  cases i
  case add | addi | sub | subi | inc | dec | cmp | cmpi => rfl
  all_goals cases hclass

/-- An instruction of class AS overwrites O, so that it answers the same state whatever O was. -/
theorem exec_setO_of_as {i : Instr} (hclass : flagClass i = .as) (s : State) (b : Bool) :
    exec i (s.setO b) = exec i s := by
  cases i
  case add | addi | sub | subi | inc | dec | cmp | cmpi => rfl
  all_goals cases hclass

/-- Settles O21: it holds, since `sp` is inert for every instruction but PUSH, POP, CALL and RET. -/
theorem onlyStackInstructionsUseSp : Obligations.OnlyStackInstructionsUseSp := by
  intro i s t v hstack h
  constructor
  · rcases exec_cases h with hdone | ⟨f, rfl, -⟩
    · exact hdone.sp hstack
    · rfl
  · by_cases hclass : flagClass i = .as
    · rw [exec_setSp_of_as hclass, h, mapNext]
    · rw [exec_of_inert (inert_setSp v) s hstack hclass, h, mapNext]

/-! ### The flag O -/

theorem State.pushWord_setO (s : State) (b : Bool) (v : Word) :
    (s.setO b).pushWord Config.misalignedPolicy v
      = (s.pushWord Config.misalignedPolicy v).map (·.setO b) := by
  unfold State.pushWord
  rw [show (s.setO b).pushAddr = s.pushAddr from rfl, (inert_setO b).memWrite]
  cases s.memWrite Config.misalignedPolicy s.pushAddr v <;> rfl

theorem State.popWord_setO (s : State) (b : Bool) :
    (s.setO b).popWord Config.misalignedPolicy
      = (s.popWord Config.misalignedPolicy).map fun p => (p.1, p.2.setO b) := by
  unfold State.popWord
  rw [show (s.setO b).sp = s.sp from rfl, (inert_setO b).memRead]
  cases s.memRead Config.misalignedPolicy s.sp <;> rfl

theorem exec_setO_of_stack {i : Instr} (hstack : usesStack i = true) (s : State) (b : Bool) :
    exec i (s.setO b) = mapNext (·.setO b) (exec i s) := by
  cases i
  case call addr =>
    simp only [exec, execCall, s.pushWord_setO b, (inert_setO b).pc]
    cases s.pushWord Config.misalignedPolicy (s.pc + 4) <;> rfl
  case push rs =>
    simp only [exec, execPush, s.pushWord_setO b, (inert_setO b).reg]
    cases s.pushWord Config.misalignedPolicy (s.reg rs) <;> rfl
  case ret =>
    simp only [exec, execRet, s.popWord_setO b]
    cases s.popWord Config.misalignedPolicy <;> rfl
  case pop rd =>
    simp only [exec, execPop, s.popWord_setO b]
    cases s.popWord Config.misalignedPolicy <;> rfl
  all_goals cases hstack

theorem agreeButO_iff (s s' : State) : AgreeButO s s' ↔ ∃ b, s' = s.setO b := by
  constructor
  · intro h
    exact ⟨_, h⟩
  · rintro ⟨b, rfl⟩
    rfl

/-- Every instruction completes alike whatever O is, and leaves states that agree but in O. -/
theorem exec_setO {i : Instr} {s t : State} (h : exec i s = .next t) (b : Bool) :
    ∃ t', exec i (s.setO b) = .next t' ∧ AgreeButO t t' := by
  by_cases hclass : flagClass i = .as
  · exact ⟨t, (exec_setO_of_as hclass s b).trans h, rfl⟩
  · refine ⟨t.setO b, ?_, rfl⟩
    cases hstack : usesStack i with
    | false => rw [exec_of_inert (inert_setO b) s hstack hclass, h, mapNext]
    | true => rw [exec_setO_of_stack hstack, h, mapNext]

theorem State.fetchInstr_setO (pol : MisalignedPolicy) (s : State) (b : Bool) :
    (s.setO b).fetchInstr pol = s.fetchInstr pol := rfl

/-- A step to a next state is one to a state that agrees in all but O, whatever O is. -/
theorem step_setO_of_next {s t : State} (h : step s = .next t) (b : Bool) :
    ∃ t', step (s.setO b) = .next t' ∧ AgreeButO t t' := by
  obtain ⟨hfault, hhalted, ⟨f, hfetch, rfl⟩ | ⟨i, hfetch, hexec⟩⟩ := step_next h <;>
    rw [← s.fetchInstr_setO _ b] at hfetch
  · exact ⟨_, step_of_fetch_error (s := s.setO b) hfault hhalted hfetch, rfl⟩
  · rw [step_of_fetch_ok (s := s.setO b) hfault hhalted hfetch]
    exact exec_setO hexec b

/-- A machine that has no step stops in the same way whatever O is. -/
theorem step_setO_of_stopped {s : State} (h : ∀ t, step s ≠ .next t) (b : Bool) :
    step (s.setO b) = step s := by
  obtain ⟨hstop, hend⟩ := faultedOrHaltedMachineHasNoStep
  cases hfault : s.fault with
  | some f => rw [hstop s f hfault, hstop (s.setO b) f hfault]
  | none =>
    cases hhalted : s.halted with
    | true => rw [hend s hfault hhalted, hend (s.setO b) hfault hhalted]
    | false =>
      obtain ⟨t, ht⟩ := runningMachineAlwaysSteps s ⟨hfault, hhalted⟩
      exact absurd ht (h t)

/-- Settles O15: it holds, since no test of the step or of an instruction reads O. -/
theorem overflowFlagNeverInfluencesExecution : Obligations.OverflowFlagNeverInfluencesExecution := by
  intro s s' hagree
  obtain ⟨b, rfl⟩ := (agreeButO_iff s s').1 hagree
  refine ⟨fun t h => step_setO_of_next h b, fun f h => ?_, fun r h => ?_⟩
  all_goals
    have hstopped (t : State) : step s ≠ .next t := by simp [h]
    rw [step_setO_of_stopped hstopped b, h]

end Sys2Proof.Machine
end

section
/-! PROOFS. Memory, devices and the program load (20_memory.md, 70_reset_and_hazards.md). -/

namespace Sys2Proof.Machine

/-! ### A store, then a read (R43, R45) -/

theorem State.memRead_ram (s : State) {a : Word} (h : IsRamEven a) :
    s.memRead Config.misalignedPolicy a = .ok (s.ramWord a, s) := by
  obtain ⟨hio, heven⟩ := h
  simp [State.memRead, misaligned_config, hio, heven]

theorem exec_storeDir_ram (s : State) (rs : Reg) {addr : Word} (h : IsRamEven addr) :
    exec (.storeDir rs addr) s = .next ((s.setRamWord addr (s.reg rs)).advance 4) := by
  obtain ⟨hio, heven⟩ := h
  simp [exec, execStoreDir, directAddr, State.storeTo, State.memWrite, misaligned_config, hio, heven]

/-- Settles O23: it holds, since a read and a fetch at an even RAM address both answer the word that stands there. -/
theorem storedWordIsReadBackAndFetched : Obligations.StoredWordIsReadBackAndFetched := by
  intro s rs addr h
  have hword : ((s.setRamWord addr (s.reg rs)).advance 4).ramWord addr = s.reg rs :=
    State.ramWord_setRamWord_same ..
  refine ⟨_, exec_storeDir_ram s rs h, ?_, ?_⟩
  · rw [State.memRead_ram _ h, hword]
  · rw [State.fetchWord_ram _ h, hword]

/-! ### The policy of odd addresses (R37) -/

/-- The last RAM address below the devices is the only odd one that `split` refuses. -/
theorem isIO_succ_of_isRamOdd {a : Word} (h : IsRamOdd a) : isIO (a + 1) = decide (a = 0xEFFF) := by
  obtain ⟨hio, hodd⟩ := h
  rw [isOdd_eq, decide_eq_true_iff] at hodd
  have hlt := a.isLt
  have hnat : (a + 1).toNat = (a.toNat + 1) % 65536 := BitVec.toNat_add a 1
  simp only [isIO, Bool.and_eq_false_iff, decide_eq_false_iff_not] at hio
  rw [isIO, hnat, Bool.and_eq_decide, decide_eq_decide, decide_eq_true_iff, decide_eq_true_iff,
    BitVec.toNat_eq, show (0xEFFF : Word).toNat = 0xEFFF from rfl]
  omega

/-- Where `misaligned` answers alike, so do the three accesses. -/
theorem accesses_eq_of_misaligned_eq {p q : MisalignedPolicy} {a : Word}
    (h : isIO a = true ∨ misaligned p a = misaligned q a) (s : State) (v : Word) :
    s.memRead p a = s.memRead q a ∧ s.memWrite p a v = s.memWrite q a v ∧ s.fetchWord p a = s.fetchWord q a := by
  unfold State.memRead State.memWrite State.fetchWord
  rcases h with h | h
  · simp only [h, if_true, and_self]
  · simp only [h, and_self]

theorem accesses_of_misaligned {pol : MisalignedPolicy} {a : Word} (hio : isIO a = false)
    (h : misaligned pol a = true) (s : State) (v : Word) :
    s.memRead pol a = .error (.misalignedAccess a .read s.pc)
      ∧ s.memWrite pol a v = .error (.misalignedAccess a .write s.pc)
      ∧ s.fetchWord pol a = .error (.misalignedAccess a .fetch s.pc) := by
  simp [State.memRead, State.memWrite, State.fetchWord, hio, h]

theorem accesses_of_aligned {pol : MisalignedPolicy} {a : Word} (hio : isIO a = false)
    (h : misaligned pol a = false) (s : State) (v : Word) :
    s.memRead pol a = .ok (s.ramWord a, s) ∧ s.memWrite pol a v = .ok (s.setRamWord a v)
      ∧ s.fetchWord pol a = .ok (s.ramWord a) := by
  simp [State.memRead, State.memWrite, State.fetchWord, hio, h]

/-- Settles O24: it holds, since the policies differ in `misaligned` only, and there at odd RAM addresses only. -/
theorem misalignedPolicyDecidesOddRamAccesses : Obligations.MisalignedPolicyDecidesOddRamAccesses := by
  intro s a v
  refine ⟨fun hodd => ?fault, fun hodd hne => ?split, ?boundary, fun hodd => ?others⟩
  case fault => exact accesses_of_misaligned (pol := .fault) hodd.1 hodd.2 s v
  case split =>
    have haligned : misaligned .split a = false := by
      rw [misaligned, isIO_succ_of_isRamOdd hodd, decide_eq_false hne, Bool.and_false]
    obtain ⟨hread, hwrite, hfetch⟩ := accesses_of_aligned hodd.1 haligned s v
    exact ⟨⟨_, hread, hfetch, isWordAt_ramWord s a⟩, _, hwrite, storedWord_setRamWord s a v⟩
  case boundary => exact accesses_of_misaligned (by decide) (by decide) s v
  case others =>
    refine accesses_eq_of_misaligned_eq ?_ s v
    cases hio : isIO a with
    | true => exact .inl rfl
    | false =>
      have heven : isOdd a = false := Bool.eq_false_iff.2 fun h => hodd ⟨hio, h⟩
      exact .inr (by simp only [misaligned, heven, Bool.false_and])

/-! ### Devices (R38 to R40) -/

/-- Settles O25: it holds, since the test for a device address comes first, and a device access is recorded alone. -/
theorem deviceAccessTouchesNoRam : Obligations.DeviceAccessTouchesNoRam :=
  fun _ _ _ _ hio => ⟨⟨_, _, if_pos hio, rfl, rfl⟩, _, if_pos hio, rfl, rfl⟩

theorem deviceAt_eq_consoleOutput_iff (a : Word) : deviceAt a = .consoleOutput ↔ a = 0xF000 := by
  unfold deviceAt
  split_ifs <;> simp_all

theorem State.consoleOutput_deviceWrite (s : State) (a v : Word) :
    (s.deviceWrite a v).consoleOutput = s.consoleOutput ++ (if a = 0xF000 then [Word.lo v] else []) := by
  have hlast : (IoKind.write == .write && deviceAt a == .consoleOutput) = decide (a = 0xF000) := by
    rw [Bool.eq_iff_iff]
    simp [deviceAt_eq_consoleOutput_iff]
  simp only [State.consoleOutput, State.deviceWrite, State.io_logIo, List.filter_append, List.map_append,
    List.filter_singleton, hlast]
  by_cases h : a = 0xF000
  · simp [h]
  · rw [decide_eq_false h, if_neg h]
    rfl

/-- Settles O28: it holds, since a store at 0xF000 is one write event there, and no other store has one. -/
theorem consoleStoreAppendsTheLowByte : Obligations.ConsoleStoreAppendsTheLowByte := by
  intro s t rs addr h
  have hne (hio : isIO addr = false) : addr ≠ 0xF000 := by
    rintro rfl
    cases hio
  change s.storeTo addr (s.reg rs) 4 = .next t at h
  obtain ⟨-, e⟩ | ⟨hio, -, e⟩ | ⟨hio, -, e⟩ := s.storeTo_cases addr (s.reg rs) 4 <;>
    cases e.symm.trans h
  · exact s.consoleOutput_deviceWrite addr (s.reg rs)
  · rw [if_neg (hne hio), List.append_nil]
    rfl
  · rw [if_neg (hne hio), List.append_nil]
    rfl

/-! ### The canonical form of RAM (log 2) -/

theorem Memory.read_of_not_mem {m : Memory} {a : Nat} (h : ∀ x ∈ m, x.1 ≠ a) : m.read a = Config.memFill := by
  induction m with
  | nil => rfl
  | cons x m ih =>
    obtain ⟨hx, hm⟩ := List.forall_mem_cons.1 h
    rw [Memory.read, if_neg (Ne.symm hx), ih hm]

theorem Memory.read_of_mem {m : Memory} (h : m.Pairwise fun x y => x.1 < y.1) {x : Host.Cell} (hx : x ∈ m) :
    m.read x.1 = x.2 := by
  induction m with
  | nil => cases hx
  | cons y m ih =>
    obtain ⟨hy, hm⟩ := List.pairwise_cons.1 h
    rcases List.mem_cons.1 hx with rfl | hx
    · rw [Memory.read, if_pos rfl]
    · rw [Memory.read, if_neg (hy x hx).ne', ih hm hx]

/-- The entries of a canonical memory are the bytes that read as something else than an unlisted byte. -/
theorem Memory.mem_iff_read {m : Memory} (h : m.wf) (x : Host.Cell) :
    x ∈ m ↔ m.read x.1 = x.2 ∧ x.2 ≠ Config.memFill := by
  constructor
  · intro hx
    exact ⟨Memory.read_of_mem h.1 hx, (h.2 x hx).2⟩
  · rintro ⟨hread, hfill⟩
    by_contra hx
    refine hfill (hread.symm.trans (Memory.read_of_not_mem fun y hy hyx => hx ?_))
    have hbyte : y.2 = x.2 := (Memory.read_of_mem h.1 hy).symm.trans (hyx ▸ hread)
    exact Prod.ext hyx hbyte ▸ hy

/-- Settles O26: it holds, since two lists in rising order with the same entries are equal. -/
theorem canonicalMemoriesThatReadAlikeAreEqual : Obligations.CanonicalMemoriesThatReadAlikeAreEqual := by
  intro m m' h h' hread
  have hmem (x : Host.Cell) : x ∈ m ↔ x ∈ m' := by
    rw [Memory.mem_iff_read h, Memory.mem_iff_read h', hread]
  have hnodup {l : Memory} (hl : l.Pairwise fun x y => x.1 < y.1) : l.Nodup :=
    hl.imp fun hlt heq => hlt.ne (congrArg Prod.fst heq)
  exact ((List.perm_ext_iff_of_nodup (hnodup h.1) (hnodup h'.1)).2 hmem).eq_of_pairwise
    (fun _ _ _ _ hlt hgt => absurd hlt hgt.asymm) h.1 h'.1

/-! ### The program load (R181) -/

theorem State.byte_placeByte (s : State) {a : Nat} (v : Byte) (ha : isRam a = true) (b : Nat) :
    (s.placeByte a v).byte b = if b = a then v else s.byte b := by
  rw [State.placeByte, if_pos ha, State.byte_setMem]
  split
  · next h => rw [h, Memory.read_write_same]
  · next h => rw [Memory.read_write_of_ne _ _ h]; rfl

/-- Bytes placed below the devices stand in order from the first address, and no other byte changes. -/
theorem State.byte_placeBytes (bs : List Byte) (s : State) (a : Word) (h : a.toNat + bs.length ≤ 0xF000)
    (b : Nat) : (s.placeBytes a bs).byte b
      = if a.toNat ≤ b then (bs[b - a.toNat]?).getD (s.byte b) else s.byte b := by
  induction bs generalizing s a with
  | nil => simp [State.placeBytes]
  | cons v bs ih =>
    rw [List.length_cons] at h
    have hram : isRam a.toNat = true := by simp [isRam]; omega
    have hnext : (a + 1).toNat = a.toNat + 1 := by
      rw [BitVec.toNat_add, show (1 : Word).toNat = 1 from rfl]; omega
    rw [State.placeBytes, ih _ _ (by omega), s.byte_placeByte v hram, hnext]
    rcases lt_trichotomy b a.toNat with hlt | rfl | hgt
    · rw [if_neg (by omega), if_neg (by omega), if_neg (by omega)]
    · simp
    · rw [if_pos (by omega), if_neg (by omega), if_pos (by omega),
        show b - a.toNat = b - (a.toNat + 1) + 1 by omega, List.getElem?_cons_succ]

/-- Everything but memory is as before: what placing bytes leaves alone. -/
structure LoadKept (s t : State) : Prop where
  regs : t.regs = s.regs
  pc : t.pc = s.pc
  sp : t.sp = s.sp
  flags : t.flags = s.flags
  run : RunKept s t
  io : IoKept s t

theorem loadKept_setMem (s : State) (m : Memory) : LoadKept s (s.setMem m) :=
  ⟨rfl, rfl, rfl, rfl, ⟨rfl, rfl⟩, rfl, rfl⟩

theorem loadKept_placeByte (s : State) (a : Nat) (v : Byte) : LoadKept s (s.placeByte a v) := by
  unfold State.placeByte
  split
  · exact loadKept_setMem s _
  · exact loadKept_setMem s s.mem

theorem LoadKept.trans {s t u : State} (h : LoadKept s t) (h' : LoadKept t u) : LoadKept s u where
  regs := h'.regs.trans h.regs
  pc := h'.pc.trans h.pc
  sp := h'.sp.trans h.sp
  flags := h'.flags.trans h.flags
  run := ⟨h'.run.1.trans h.run.1, h'.run.2.trans h.run.2⟩
  io := ⟨h'.io.1.trans h.io.1, h'.io.2.trans h.io.2⟩

theorem loadKept_placeBytes (bs : List Byte) (s : State) (a : Word) : LoadKept s (s.placeBytes a bs) := by
  induction bs generalizing s a with
  | nil => exact loadKept_setMem s s.mem
  | cons v bs ih => exact (loadKept_placeByte s a.toNat v).trans (ih _ _)

theorem length_imageBytes (image : List Word) : (image.flatMap Word.bytes).length = 2 * image.length := by
  induction image with
  | nil => rfl
  | cons w image ih =>
    rw [List.flatMap_cons, List.length_append, ih, List.length_cons]
    simp only [Word.bytes, List.length_cons, List.length_nil]
    omega

/-- The bytes of a word stand at twice its number, low byte first (R33). -/
theorem getElem?_imageBytes {image : List Word} {k : Nat} {w : Word} (h : image[k]? = some w) :
    (image.flatMap Word.bytes)[2 * k]? = some (Word.lo w)
      ∧ (image.flatMap Word.bytes)[2 * k + 1]? = some (Word.hi w) := by
  induction image generalizing k with
  | nil => cases h
  | cons x image ih =>
    cases k with
    | zero =>
      cases h
      exact ⟨rfl, rfl⟩
    | succ k => exact ih h

/-- Settles O27: it holds, since the image lies below the devices and wraps around no address. -/
theorem loadPlacesTheImageLittleEndian : Obligations.LoadPlacesTheImageLittleEndian := by
  intro s image hfits
  have hbyte (b : Nat) : (s.placeBytes 0x0000 (image.flatMap Word.bytes)).byte b
      = ((image.flatMap Word.bytes)[b]?).getD (s.byte b) := by
    have hbelow : (0x0000 : Word).toNat + (image.flatMap Word.bytes).length ≤ 0xF000 := by
      rw [length_imageBytes]
      simpa using hfits
    exact (State.byte_placeBytes _ s 0x0000 hbelow b).trans (if_pos (Nat.zero_le b))
  have hkept := loadKept_placeBytes (image.flatMap Word.bytes) s 0x0000
  refine ⟨_, if_pos (decide_eq_true hfits), fun k w hw => ?words, fun b hb => ?rest, hkept.regs, hkept.pc,
    hkept.sp, hkept.flags, hkept.run, hkept.io⟩
  case words =>
    obtain ⟨hlo, hhi⟩ := getElem?_imageBytes hw
    rw [hbyte, hbyte, hlo, hhi]
    exact ⟨rfl, rfl⟩
  case rest =>
    rw [hbyte, List.getElem?_eq_none (by rw [length_imageBytes]; exact hb)]
    rfl

/-! ### Reset (R26, R180) -/

/-- Settles O13: it holds, since a reset state has an even `sp`, an empty trace and does not run halted. -/
theorem everyResetStateMeetsTheInvariant : Obligations.EveryResetStateMeetsTheInvariant := by
  refine ⟨⟨rfl, rfl, rfl, rfl, rfl, Memory.wf_nil⟩, fun s ⟨_, hsp, _, hfault, hio, hmem⟩ => ?_⟩
  exact {
    memCanonical := hmem
    spEven := by rw [hsp]; rfl
    ioAtDevices := by rw [hio]; exact List.forall_mem_nil _
    haltedClean := fun _ => hfault }

/-- Settles O14: it holds, by the values of the reset state. -/
theorem resetLeavesTheDecidedValues : Obligations.ResetLeavesTheDecidedValues :=
  ⟨rfl, rfl, rfl, rfl, rfl⟩

end Sys2Proof.Machine
end

section
/-! PROOFS. What the compare flags decide (44_compare.md), the class-ZN write-back under CO_POLICY = any (R18), and a
push followed by a pop (R15): CALL then RET, PUSH then POP. -/

namespace Sys2Proof.Machine

/-! ### Compare -/

/-- The difference of two words of one sign does not overflow. -/
theorem toInt_sub_of_msb_eq {a b : Word} (h : a.msb = b.msb) : (a - b).toInt = a.toInt - b.toInt := by
  refine BitVec.toInt_sub_of_not_ssubOverflow ?_
  rw [BitVec.ssubOverflow_eq, h]
  cases b.msb <;> simp

/-- The sign of a difference, corrected by its overflow, tells whether the first operand is below the second: the
difference is exact where the operands have one sign, and where they differ in sign the negative one is below. -/
theorem msb_sub_ne_overflow_iff (a b : Word) :
    ((a - b).msb ≠ (a.msb != b.msb && (a - b).msb != a.msb)) ↔ a.toInt < b.toInt := by
  by_cases hsigns : a.msb = b.msb
  · have hexact : (a - b).msb = decide (a.toInt < b.toInt) := by
      rw [BitVec.msb_eq_toInt, toInt_sub_of_msb_eq hsigns, decide_eq_decide, sub_neg]
    simp [hsigns, hexact]
  · have hb : b.msb = !a.msb := Bool.eq_not.2 (Ne.symm hsigns)
    have hbelow : a.toInt < b.toInt ↔ a.msb = true := by
      simp only [BitVec.msb_eq_toInt, decide_eq_decide, decide_eq_true_iff] at hsigns ⊢
      omega
    rw [hbelow, hb]
    cases a.msb <;> simp

/-- Settles O48: it holds, by the flags of a difference; for N and O by the signs of the operands. -/
theorem compareFlagsDecideTheRelations : Obligations.CompareFlagsDecideTheRelations :=
  fun a b => ⟨(diffFlags_flagsSub a b).z, (diffFlags_flagsSub a b).c, msb_sub_ne_overflow_iff a b⟩

/-! ### The class-ZN write-back under CO_POLICY = any -/

/-- Settles O43: it holds, since the two policies differ in C, O and the count of draws only. -/
theorem anyCoPolicyStillWritesZAndN : Obligations.AnyCoPolicyStillWritesZAndN :=
  fun s rd r => ⟨_, rfl, State.reg_setReg_same s rd r, regsKeptBut_setReg s rd r, beq_iff_eq,
    BitVec.msb_eq_getLsbD_last r, rfl, rfl, fun _ => rfl, ⟨rfl, rfl⟩, rfl⟩

/-! ### A push, then a pop -/

theorem State.pushWord_ram (s : State) (v : Word) (h : IsRamEven s.pushAddr) :
    s.pushWord Config.misalignedPolicy v = .ok ((s.setRamWord s.pushAddr v).setSp s.pushAddr) := by
  obtain ⟨hio, heven⟩ := h
  simp [State.pushWord, State.memWrite, misaligned_config, hio, heven]

theorem State.popWord_ram (s : State) (h : IsRamEven s.sp) :
    s.popWord Config.misalignedPolicy = .ok (s.ramWord s.sp, s.setSp (s.sp + 2)) := by
  rw [State.popWord, s.memRead_ram h]

/-- A pop answers the word pushed before it and brings `sp` back, wherever `pc` has been moved between them. -/
theorem State.popWord_pushWord (s : State) (v dest : Word) (h : IsRamEven s.pushAddr) :
    (((s.setRamWord s.pushAddr v).setSp s.pushAddr).setPc dest).popWord Config.misalignedPolicy
      = .ok (v, ((s.setRamWord s.pushAddr v).setPc dest).setSp s.sp) := by
  have hsp : s.pushAddr + 2 = s.sp := sub_add_cancel s.sp 2
  have hword : ((s.setRamWord s.pushAddr v).setPc dest).ramWord s.pushAddr = v :=
    State.ramWord_setRamWord_same ..
  rw [State.popWord_ram _ h, ← hsp]
  exact congrArg (fun w => Except.ok (w, _)) hword

/-- Settles O52: it holds, since RET pops the address that CALL pushed. -/
theorem retAfterCallComesBack : Obligations.RetAfterCallComesBack := by
  intro s addr h
  exact ⟨_, _, exec_call_of_pushWord_ok addr (s.pushWord_ram _ h), rfl,
    exec_ret_of_popWord_ok (s.popWord_pushWord (s.pc + 4) addr h), rfl, rfl, fun _ => rfl, rfl,
    (storedWord_setRamWord s s.pushAddr (s.pc + 4)).rest⟩

/-- Settles O55: it holds, since POP pops the word that PUSH pushed. -/
theorem popAfterPushCopiesTheRegister : Obligations.PopAfterPushCopiesTheRegister := by
  intro s ra rb h
  have hpc : s.pc + 2 + 2 = s.pc + 4 := add_assoc s.pc 2 2
  exact ⟨_, _, exec_push_of_pushWord_ok (s.pushWord_ram _ h),
    exec_pop_of_popWord_ok rb (s.popWord_pushWord (s.reg ra) (s.pc + 2) h), State.reg_setReg_same .., rfl,
    regsKeptBut_setReg s rb _, rfl, hpc⟩

end Sys2Proof.Machine
end

section
/-! PROOFS. The assembler (R58, R69, R72). Every form that takes a value assembles to its instruction applied to the
value's field, so each statement turns on what the field is. -/

namespace Sys2Proof.Machine

/-! ### Back from an instruction as it is written -/

/-- A field written as its number is that field. -/
theorem AsmValue.field_num_toNat (labels : Labels) {k : Nat} (x : BitVec k) :
    AsmValue.field labels k (.num x.toNat) = .ok x := by
  rw [AsmValue.field_of_resolve (n := x.toNat) rfl, if_pos x.isLt, BitVec.ofNat_toNat, BitVec.setWidth_eq]

theorem toInstr_of_field {labels : Labels} {a : AsmInstr} {k : Nat} {v : AsmValue} {x : BitVec k}
    {make : BitVec k → Instr} (h : a.toInstr labels = (v.field labels k).map make)
    (hfield : v.field labels k = .ok x) : a.toInstr labels = .ok (make x) := by
  rw [h, hfield]
  rfl

/-- Settles O57: it holds, since the forms without a value are read back as they are, and a field from its number. -/
theorem assemblingAnInstructionsSyntaxGivesItBack : Obligations.AssemblingAnInstructionsSyntaxGivesItBack := by
  intro labels i
  cases i
  case movi | loadInd | loadDir | storeInd | storeDir | addi | subi | andi | ori | shli | shri | cmpi | jmp | jz
      | jnz | jc | jnc | jn | call =>
    exact toInstr_of_field rfl (AsmValue.field_num_toNat labels _)
  all_goals rfl

/-! ### Values and their ranges -/

theorem assemblesUpTo_of_field {labels : Labels} {m : Mnemonic} {os : List Operand} {v : AsmValue} {n k max : Nat}
    {make : BitVec k → Instr} (hn : v.resolve labels = .ok n) (hmax : max + 1 = 2 ^ k)
    (h : (⟨m, os⟩ : AsmInstr).toInstr labels = (v.field labels k).map make) :
    AssemblesUpTo max n labels m os (make (BitVec.ofNat k n)) := by
  rw [AssemblesUpTo, h, AsmValue.field_of_resolve hn, ← hmax]
  by_cases hle : n ≤ max
  · rw [if_pos hle, if_pos (Nat.lt_succ_of_le hle)]
    rfl
  · rw [if_neg hle, if_neg (by omega)]
    rfl

/-- Settles O59: it holds, since each of the forms checks its value against a field of 4, 7 or 16 bits. -/
theorem valuesOutsideTheirRangeAreAssemblyErrors : Obligations.ValuesOutsideTheirRangeAreAssemblyErrors := by
  intro labels rd rs v n hn
  refine ⟨?_, ?_, ?_, ?_, ?_, ?_, ?_, ?_, ?_, ?_, ?_, ?_, ?_, ?_, ?_, ?_, ?_, ?_, ?_⟩
  all_goals exact assemblesUpTo_of_field hn rfl rfl

/-! ### Lengths -/

theorem exists_of_map_eq_ok {α β ε : Type} {x : Except ε α} {f : α → β} {b : β} (h : x.map f = .ok b) :
    ∃ a, b = f a := by
  cases x with
  | error e => cases h
  | ok a => cases h; exact ⟨a, rfl⟩

/-- Settles O58: it holds, since the forms that placement counts as 4 bytes are those of the Direct format. -/
theorem assembledLengthIsThePlacedLength : Obligations.AssembledLengthIsThePlacedLength := by
  intro labels a i h
  obtain ⟨m, os⟩ := a
  unfold AsmInstr.toInstr at h
  dsimp only at h
  split at h
  -- the arm of operands that fit no form
  case h_39 => cases h
  -- the arms of the forms that take a value
  case h_3 | h_4 | h_5 | h_6 | h_7 | h_9 | h_11 | h_17 | h_19 | h_23 | h_25 | h_27 | h_28 | h_29 | h_30
      | h_31 | h_32 | h_33 | h_34 =>
    obtain ⟨x, rfl⟩ := exists_of_map_eq_ok h
    rfl
  all_goals
    cases h
    rfl

end Sys2Proof.Machine
end
